-- ==== Sys2Proof/Word.lean ====
section
/-! DEFINITION. The word types of the block: a register and an address hold 32 bits, a cell holds 8, a register index
has 5 (spec 00_scope R7 and R13, 10_state R20). -/

namespace Sys2Proof

/-- One cell of the store, or one character of the port: 8 bits (R13, R31). -/
abbrev Byte := BitVec 8

/-- A register, the program counter, an address or an instruction word: 32 bits (R7, R13). -/
abbrev Word := BitVec 32

/-- A register index, 0 to 31 (R20). -/
abbrev RegIdx := BitVec 5

end Sys2Proof
end

