-- ==== Sys2Proof/Syntax.lean ====
section
/-! DEFINITION. The instructions of the block: one constructor of `Instr` per row of spec/opcode_table.json (30_encoding
R117), with the operands its rule gives. Immediates are the UNSIGNED values the decoder reconstructs (R92): `imm_I` and
`imm_S` have 12 bits, `imm_B` 13 bits with bit 0 clear (R97), `imm_U` 32 bits with the low 12 clear (R98), `imm_J` 21 bits
with bit 0 clear (R99), a shift amount 5 bits (R101). The bits an instruction's handler ignores (JALR's `funct3`, every
bit but the opcode of FENCE and ECALL: R110 to R112) are no operands: notes/assumptions/8.md. -/

namespace Sys2Proof

/-- The eleven opcode groups, each with one handler (R102). -/
inductive OpcodeGroup where
  | load | fence | arithImm | auipc | store | arithReg | lui | branch | jalr | jal | ecall
  deriving DecidableEq, Repr

/-- The field an InvalidEncoding error names (R282). -/
inductive EncodingField where
  /-- Bits 14 to 12, of a Branch, Load or Store word (R157, R165, R180). -/
  | funct3
  /-- Bits 31 to 25, of an ArithReg word (R221). -/
  | funct7
  /-- Bits 31 to 25, called `imm[11:5]`, of an ArithImm shift word (R200). -/
  | immHi7
  deriving DecidableEq, Repr

/-- Why a word is no instruction (R113). -/
inductive Reject where
  /-- The opcode has no handler (R104). -/
  | unimplementedOpcode (opcode : BitVec 7)
  /-- The group's handler refuses the value of a field (R105 to R109). -/
  | invalidEncoding (field : EncodingField) (value : Nat)
  deriving DecidableEq, Repr

/-- The 39 instructions (R117). -/
inductive Instr where
  /-- `LUI rd, imm_U` (R130). -/
  | lui (rd : RegIdx) (imm : BitVec 32)
  /-- `AUIPC rd, imm_U` (R131). -/
  | auipc (rd : RegIdx) (imm : BitVec 32)
  /-- `JAL rd, imm_J` (R141). -/
  | jal (rd : RegIdx) (imm : BitVec 21)
  /-- `JALR rd, imm_I(rs1)` (R142). -/
  | jalr (rd rs1 : RegIdx) (imm : BitVec 12)
  /-- `BEQ rs1, rs2, imm_B` (R151). -/
  | beq (rs1 rs2 : RegIdx) (imm : BitVec 13)
  /-- `BNE rs1, rs2, imm_B` (R152). -/
  | bne (rs1 rs2 : RegIdx) (imm : BitVec 13)
  /-- `BLT rs1, rs2, imm_B` (R153). -/
  | blt (rs1 rs2 : RegIdx) (imm : BitVec 13)
  /-- `BGE rs1, rs2, imm_B` (R154). -/
  | bge (rs1 rs2 : RegIdx) (imm : BitVec 13)
  /-- `BLTU rs1, rs2, imm_B` (R155). -/
  | bltu (rs1 rs2 : RegIdx) (imm : BitVec 13)
  /-- `BGEU rs1, rs2, imm_B` (R156). -/
  | bgeu (rs1 rs2 : RegIdx) (imm : BitVec 13)
  /-- `LB rd, imm_I(rs1)` (R167). -/
  | lb (rd rs1 : RegIdx) (imm : BitVec 12)
  /-- `LH rd, imm_I(rs1)` (R168). -/
  | lh (rd rs1 : RegIdx) (imm : BitVec 12)
  /-- `LW rd, imm_I(rs1)` (R169). -/
  | lw (rd rs1 : RegIdx) (imm : BitVec 12)
  /-- `LBU rd, imm_I(rs1)` (R170). -/
  | lbu (rd rs1 : RegIdx) (imm : BitVec 12)
  /-- `LHU rd, imm_I(rs1)` (R171). -/
  | lhu (rd rs1 : RegIdx) (imm : BitVec 12)
  /-- `SB rs2, imm_S(rs1)` (R182). -/
  | sb (rs1 rs2 : RegIdx) (imm : BitVec 12)
  /-- `SH rs2, imm_S(rs1)` (R183). -/
  | sh (rs1 rs2 : RegIdx) (imm : BitVec 12)
  /-- `SW rs2, imm_S(rs1)` (R184). -/
  | sw (rs1 rs2 : RegIdx) (imm : BitVec 12)
  /-- `ADDI rd, rs1, imm_I` (R191). -/
  | addi (rd rs1 : RegIdx) (imm : BitVec 12)
  /-- `SLTI rd, rs1, imm_I` (R192). -/
  | slti (rd rs1 : RegIdx) (imm : BitVec 12)
  /-- `SLTIU rd, rs1, imm_I` (R193). -/
  | sltiu (rd rs1 : RegIdx) (imm : BitVec 12)
  /-- `XORI rd, rs1, imm_I` (R194). -/
  | xori (rd rs1 : RegIdx) (imm : BitVec 12)
  /-- `ORI rd, rs1, imm_I` (R195). -/
  | ori (rd rs1 : RegIdx) (imm : BitVec 12)
  /-- `ANDI rd, rs1, imm_I` (R196). -/
  | andi (rd rs1 : RegIdx) (imm : BitVec 12)
  /-- `SLLI rd, rs1, shamt` (R197). -/
  | slli (rd rs1 : RegIdx) (shamt : BitVec 5)
  /-- `SRLI rd, rs1, shamt` (R198). -/
  | srli (rd rs1 : RegIdx) (shamt : BitVec 5)
  /-- `SRAI rd, rs1, shamt` (R199). -/
  | srai (rd rs1 : RegIdx) (shamt : BitVec 5)
  /-- `ADD rd, rs1, rs2` (R211). -/
  | add (rd rs1 rs2 : RegIdx)
  /-- `SUB rd, rs1, rs2` (R212). -/
  | sub (rd rs1 rs2 : RegIdx)
  /-- `SLL rd, rs1, rs2` (R213). -/
  | sll (rd rs1 rs2 : RegIdx)
  /-- `SLT rd, rs1, rs2` (R214). -/
  | slt (rd rs1 rs2 : RegIdx)
  /-- `SLTU rd, rs1, rs2` (R215). -/
  | sltu (rd rs1 rs2 : RegIdx)
  /-- `XOR rd, rs1, rs2` (R216). -/
  | xor (rd rs1 rs2 : RegIdx)
  /-- `SRL rd, rs1, rs2` (R217). -/
  | srl (rd rs1 rs2 : RegIdx)
  /-- `SRA rd, rs1, rs2` (R218). -/
  | sra (rd rs1 rs2 : RegIdx)
  /-- `OR rd, rs1, rs2` (R219). -/
  | or (rd rs1 rs2 : RegIdx)
  /-- `AND rd, rs1, rs2` (R220). -/
  | and (rd rs1 rs2 : RegIdx)
  /-- `FENCE` (R231). -/
  | fence
  /-- `ECALL` (R236). -/
  | ecall
  deriving DecidableEq, Repr

end Sys2Proof
end

