-- ==== Sys2Proof/Decode.lean ====
section
/-! DEFINITION. The decoder and the encoder, from 30_encoding (R90 to R112): a stateless, total function of the 32-bit word,
and the canonical word of each instruction. -/

namespace Sys2Proof

/-! ### Bit fields (R11, R93 to R101) -/

/-- `extract_bitfield(word, msb, lsb)`: bits `lsb` to `msb`, inclusive, right-justified (R11). -/
def extractBitfield (w : Word) (msb lsb : Nat) : BitVec (msb - lsb + 1) := w.extractLsb msb lsb

/-- `opcode = w[6:0]` (R93). -/
def opcodeOf (w : Word) : BitVec 7 := extractBitfield w 6 0
/-- `rd = w[11:7]` (R93). -/
def rdOf (w : Word) : RegIdx := extractBitfield w 11 7
/-- `funct3 = w[14:12]` (R93). -/
def funct3Of (w : Word) : BitVec 3 := extractBitfield w 14 12
/-- `rs1 = w[19:15]` (R93). -/
def rs1Of (w : Word) : RegIdx := extractBitfield w 19 15
/-- `rs2 = w[24:20]` (R93). -/
def rs2Of (w : Word) : RegIdx := extractBitfield w 24 20
/-- `funct7 = w[31:25]` (R93); an immediate shift's `hi7` is the same bits (R101). -/
def funct7Of (w : Word) : BitVec 7 := extractBitfield w 31 25
/-- `shamt = w[24:20]` (R101). -/
def shamtOf (w : Word) : BitVec 5 := extractBitfield w 24 20
/-- `imm_I = w[31:20]` (R95). -/
def immIOf (w : Word) : BitVec 12 := extractBitfield w 31 20
/-- `imm_S = w[31:25] ++ w[11:7]` (R96). -/
def immSOf (w : Word) : BitVec 12 := extractBitfield w 31 25 ++ extractBitfield w 11 7
/-- `imm_B = w[31] ++ w[7] ++ w[30:25] ++ w[11:8] ++ 0` (R97). -/
def immBOf (w : Word) : BitVec 13 :=
  extractBitfield w 31 31 ++ extractBitfield w 7 7 ++ extractBitfield w 30 25 ++ extractBitfield w 11 8 ++ 0#1
/-- `imm_U = w[31:12] ++ 000000000000` (R98). -/
def immUOf (w : Word) : BitVec 32 := extractBitfield w 31 12 ++ 0#12
/-- `imm_J = w[31] ++ w[19:12] ++ w[20] ++ w[30:21] ++ 0` (R99). -/
def immJOf (w : Word) : BitVec 21 :=
  extractBitfield w 31 31 ++ extractBitfield w 19 12 ++ extractBitfield w 20 20 ++ extractBitfield w 30 21 ++ 0#1

/-! ### The decoder -/

/-- The dispatch table: the eleven opcodes that have a handler (R102). -/
def groupOf : BitVec 7 → Option OpcodeGroup
  | 0b0000011#7 => some .load
  | 0b0001111#7 => some .fence
  | 0b0010011#7 => some .arithImm
  | 0b0010111#7 => some .auipc
  | 0b0100011#7 => some .store
  | 0b0110011#7 => some .arithReg
  | 0b0110111#7 => some .lui
  | 0b1100011#7 => some .branch
  | 0b1100111#7 => some .jalr
  | 0b1101111#7 => some .jal
  | 0b1110011#7 => some .ecall
  | _ => none

/-- Branch: `funct3` selects the comparison (R105, R157). -/
def decodeBranch (w : Word) : Except Reject Instr :=
  match funct3Of w with
  | 0b000#3 => .ok (.beq (rs1Of w) (rs2Of w) (immBOf w))
  | 0b001#3 => .ok (.bne (rs1Of w) (rs2Of w) (immBOf w))
  | 0b100#3 => .ok (.blt (rs1Of w) (rs2Of w) (immBOf w))
  | 0b101#3 => .ok (.bge (rs1Of w) (rs2Of w) (immBOf w))
  | 0b110#3 => .ok (.bltu (rs1Of w) (rs2Of w) (immBOf w))
  | 0b111#3 => .ok (.bgeu (rs1Of w) (rs2Of w) (immBOf w))
  | f => .error (.invalidEncoding .funct3 f.toNat)

/-- Load: `funct3` selects width and extension; only 0, 1, 2, 4 and 5 are valid (R106, R165). -/
def decodeLoad (w : Word) : Except Reject Instr :=
  match funct3Of w with
  | 0b000#3 => .ok (.lb (rdOf w) (rs1Of w) (immIOf w))
  | 0b001#3 => .ok (.lh (rdOf w) (rs1Of w) (immIOf w))
  | 0b010#3 => .ok (.lw (rdOf w) (rs1Of w) (immIOf w))
  | 0b100#3 => .ok (.lbu (rdOf w) (rs1Of w) (immIOf w))
  | 0b101#3 => .ok (.lhu (rdOf w) (rs1Of w) (immIOf w))
  | f => .error (.invalidEncoding .funct3 f.toNat)

/-- Store: `funct3` selects the width; only 0, 1 and 2 are valid (R107, R180). -/
def decodeStore (w : Word) : Except Reject Instr :=
  match funct3Of w with
  | 0b000#3 => .ok (.sb (rs1Of w) (rs2Of w) (immSOf w))
  | 0b001#3 => .ok (.sh (rs1Of w) (rs2Of w) (immSOf w))
  | 0b010#3 => .ok (.sw (rs1Of w) (rs2Of w) (immSOf w))
  | f => .error (.invalidEncoding .funct3 f.toNat)

/-- The left shift of ArithImm requires `w[31:25] = 0000000` (R108, R200). -/
def decodeShiftLeftImm (w : Word) : Except Reject Instr :=
  match funct7Of w with
  | 0b0000000#7 => .ok (.slli (rdOf w) (rs1Of w) (shamtOf w))
  | h => .error (.invalidEncoding .immHi7 h.toNat)

/-- The right shifts of ArithImm require `w[31:25]` to be `0000000` or `0100000` (R108, R200). -/
def decodeShiftRightImm (w : Word) : Except Reject Instr :=
  match funct7Of w with
  | 0b0000000#7 => .ok (.srli (rdOf w) (rs1Of w) (shamtOf w))
  | 0b0100000#7 => .ok (.srai (rdOf w) (rs1Of w) (shamtOf w))
  | h => .error (.invalidEncoding .immHi7 h.toNat)

/-- ArithImm: `funct3` selects the operation and all eight values are used (R108). -/
def decodeArithImm (w : Word) : Except Reject Instr :=
  match funct3Of w with
  | 0b000#3 => .ok (.addi (rdOf w) (rs1Of w) (immIOf w))
  | 0b001#3 => decodeShiftLeftImm w
  | 0b010#3 => .ok (.slti (rdOf w) (rs1Of w) (immIOf w))
  | 0b011#3 => .ok (.sltiu (rdOf w) (rs1Of w) (immIOf w))
  | 0b100#3 => .ok (.xori (rdOf w) (rs1Of w) (immIOf w))
  | 0b101#3 => decodeShiftRightImm w
  | 0b110#3 => .ok (.ori (rdOf w) (rs1Of w) (immIOf w))
  | _ => .ok (.andi (rdOf w) (rs1Of w) (immIOf w))

/-- ArithReg with `funct7 = 0000000`: every `funct3` selects an operation (R109). -/
def decodeArithRegBase (w : Word) : Instr :=
  match funct3Of w with
  | 0b000#3 => .add (rdOf w) (rs1Of w) (rs2Of w)
  | 0b001#3 => .sll (rdOf w) (rs1Of w) (rs2Of w)
  | 0b010#3 => .slt (rdOf w) (rs1Of w) (rs2Of w)
  | 0b011#3 => .sltu (rdOf w) (rs1Of w) (rs2Of w)
  | 0b100#3 => .xor (rdOf w) (rs1Of w) (rs2Of w)
  | 0b101#3 => .srl (rdOf w) (rs1Of w) (rs2Of w)
  | 0b110#3 => .or (rdOf w) (rs1Of w) (rs2Of w)
  | _ => .and (rdOf w) (rs1Of w) (rs2Of w)

/-- ArithReg: `funct7` is checked first; `0100000` is SUB or SRA and nothing else (R109, R221). -/
def decodeArithReg (w : Word) : Except Reject Instr :=
  match funct7Of w with
  | 0b0000000#7 => .ok (decodeArithRegBase w)
  | 0b0100000#7 =>
    match funct3Of w with
    | 0b000#3 => .ok (.sub (rdOf w) (rs1Of w) (rs2Of w))
    | 0b101#3 => .ok (.sra (rdOf w) (rs1Of w) (rs2Of w))
    | _ => .error (.invalidEncoding .funct7 0x20)
  | f => .error (.invalidEncoding .funct7 f.toNat)

/-- What the handler of a group makes of the word: it re-decodes using its own format (R103). -/
def decodeGroup (g : OpcodeGroup) (w : Word) : Except Reject Instr :=
  match g with
  | .load => decodeLoad w
  | .fence => .ok .fence
  | .arithImm => decodeArithImm w
  | .auipc => .ok (.auipc (rdOf w) (immUOf w))
  | .store => decodeStore w
  | .arithReg => decodeArithReg w
  | .lui => .ok (.lui (rdOf w) (immUOf w))
  | .branch => decodeBranch w
  | .jalr => .ok (.jalr (rdOf w) (rs1Of w) (immIOf w))
  | .jal => .ok (.jal (rdOf w) (immJOf w))
  | .ecall => .ok .ecall

/-- The instruction a word is, or why it is none. Dispatch is by the opcode alone (R92, R103, R104). -/
def decode (w : Word) : Except Reject Instr :=
  match groupOf (opcodeOf w) with
  | none => .error (.unimplementedOpcode (opcodeOf w))
  | some g => decodeGroup g w

/-- The word of four consecutive cells, the first holding bits 7 to 0 (R53). -/
def wordOfBytes (b0 b1 b2 b3 : Byte) : Word := b3 ++ b2 ++ b1 ++ b0

/-- The decoder over the bytes of memory, lowest address first: an instruction is four of them (R90). -/
def decodeBytes (b0 b1 b2 b3 : Byte) : Except Reject Instr := decode (wordOfBytes b0 b1 b2 b3)

/-- The word whose low `nbits` bits are those of `w`; the bits above are 0. -/
def tableWord (nbits w : Nat) : Word := BitVec.ofNat 32 (w % 2 ^ nbits)

/-- What this decoder reads from an instruction whose bits are `w`, numbered as spec/opcode_table.json numbers them: laid
out little-endian (R53) and decoded. -/
def decodeTableWord (nbits w : Nat) : Option Instr :=
  let v := tableWord nbits w
  match decodeBytes (v.extractLsb' 0 8) (v.extractLsb' 8 8) (v.extractLsb' 16 8) (v.extractLsb' 24 8) with
  | .ok i => some i
  | .error _ => none

/-! ### The encoder -/

/-- R format (R94). -/
def encodeR (opcode : BitVec 7) (funct3 : BitVec 3) (funct7 : BitVec 7) (rd rs1 rs2 : RegIdx) : Word :=
  funct7 ++ rs2 ++ rs1 ++ funct3 ++ rd ++ opcode

/-- I format (R95). -/
def encodeI (opcode : BitVec 7) (funct3 : BitVec 3) (rd rs1 : RegIdx) (imm : BitVec 12) : Word :=
  imm ++ rs1 ++ funct3 ++ rd ++ opcode

/-- I format of an immediate shift: `hi7` above the shift amount (R101). -/
def encodeShift (funct3 : BitVec 3) (hi7 : BitVec 7) (rd rs1 : RegIdx) (shamt : BitVec 5) : Word :=
  hi7 ++ shamt ++ rs1 ++ funct3 ++ rd ++ 0b0010011#7

/-- S format (R96). -/
def encodeS (opcode : BitVec 7) (funct3 : BitVec 3) (rs1 rs2 : RegIdx) (imm : BitVec 12) : Word :=
  imm.extractLsb' 5 7 ++ rs2 ++ rs1 ++ funct3 ++ imm.extractLsb' 0 5 ++ opcode

/-- B format (R97). -/
def encodeB (opcode : BitVec 7) (funct3 : BitVec 3) (rs1 rs2 : RegIdx) (imm : BitVec 13) : Word :=
  imm.extractLsb' 12 1 ++ imm.extractLsb' 5 6 ++ rs2 ++ rs1 ++ funct3 ++ imm.extractLsb' 1 4 ++ imm.extractLsb' 11 1
    ++ opcode

/-- U format (R98). -/
def encodeU (opcode : BitVec 7) (rd : RegIdx) (imm : BitVec 32) : Word :=
  imm.extractLsb' 12 20 ++ rd ++ opcode

/-- J format (R99). -/
def encodeJ (opcode : BitVec 7) (rd : RegIdx) (imm : BitVec 21) : Word :=
  imm.extractLsb' 20 1 ++ imm.extractLsb' 1 10 ++ imm.extractLsb' 11 1 ++ imm.extractLsb' 12 8 ++ rd ++ opcode

/-- The canonical word of a well-formed instruction (R102, R105 to R112). -/
def encode : Instr → Word
  | .lui rd imm => encodeU 0b0110111#7 rd imm
  | .auipc rd imm => encodeU 0b0010111#7 rd imm
  | .jal rd imm => encodeJ 0b1101111#7 rd imm
  | .jalr rd rs1 imm => encodeI 0b1100111#7 0b000#3 rd rs1 imm
  | .beq rs1 rs2 imm => encodeB 0b1100011#7 0b000#3 rs1 rs2 imm
  | .bne rs1 rs2 imm => encodeB 0b1100011#7 0b001#3 rs1 rs2 imm
  | .blt rs1 rs2 imm => encodeB 0b1100011#7 0b100#3 rs1 rs2 imm
  | .bge rs1 rs2 imm => encodeB 0b1100011#7 0b101#3 rs1 rs2 imm
  | .bltu rs1 rs2 imm => encodeB 0b1100011#7 0b110#3 rs1 rs2 imm
  | .bgeu rs1 rs2 imm => encodeB 0b1100011#7 0b111#3 rs1 rs2 imm
  | .lb rd rs1 imm => encodeI 0b0000011#7 0b000#3 rd rs1 imm
  | .lh rd rs1 imm => encodeI 0b0000011#7 0b001#3 rd rs1 imm
  | .lw rd rs1 imm => encodeI 0b0000011#7 0b010#3 rd rs1 imm
  | .lbu rd rs1 imm => encodeI 0b0000011#7 0b100#3 rd rs1 imm
  | .lhu rd rs1 imm => encodeI 0b0000011#7 0b101#3 rd rs1 imm
  | .sb rs1 rs2 imm => encodeS 0b0100011#7 0b000#3 rs1 rs2 imm
  | .sh rs1 rs2 imm => encodeS 0b0100011#7 0b001#3 rs1 rs2 imm
  | .sw rs1 rs2 imm => encodeS 0b0100011#7 0b010#3 rs1 rs2 imm
  | .addi rd rs1 imm => encodeI 0b0010011#7 0b000#3 rd rs1 imm
  | .slti rd rs1 imm => encodeI 0b0010011#7 0b010#3 rd rs1 imm
  | .sltiu rd rs1 imm => encodeI 0b0010011#7 0b011#3 rd rs1 imm
  | .xori rd rs1 imm => encodeI 0b0010011#7 0b100#3 rd rs1 imm
  | .ori rd rs1 imm => encodeI 0b0010011#7 0b110#3 rd rs1 imm
  | .andi rd rs1 imm => encodeI 0b0010011#7 0b111#3 rd rs1 imm
  | .slli rd rs1 shamt => encodeShift 0b001#3 0b0000000#7 rd rs1 shamt
  | .srli rd rs1 shamt => encodeShift 0b101#3 0b0000000#7 rd rs1 shamt
  | .srai rd rs1 shamt => encodeShift 0b101#3 0b0100000#7 rd rs1 shamt
  | .add rd rs1 rs2 => encodeR 0b0110011#7 0b000#3 0b0000000#7 rd rs1 rs2
  | .sub rd rs1 rs2 => encodeR 0b0110011#7 0b000#3 0b0100000#7 rd rs1 rs2
  | .sll rd rs1 rs2 => encodeR 0b0110011#7 0b001#3 0b0000000#7 rd rs1 rs2
  | .slt rd rs1 rs2 => encodeR 0b0110011#7 0b010#3 0b0000000#7 rd rs1 rs2
  | .sltu rd rs1 rs2 => encodeR 0b0110011#7 0b011#3 0b0000000#7 rd rs1 rs2
  | .xor rd rs1 rs2 => encodeR 0b0110011#7 0b100#3 0b0000000#7 rd rs1 rs2
  | .srl rd rs1 rs2 => encodeR 0b0110011#7 0b101#3 0b0000000#7 rd rs1 rs2
  | .sra rd rs1 rs2 => encodeR 0b0110011#7 0b101#3 0b0100000#7 rd rs1 rs2
  | .or rd rs1 rs2 => encodeR 0b0110011#7 0b110#3 0b0000000#7 rd rs1 rs2
  | .and rd rs1 rs2 => encodeR 0b0110011#7 0b111#3 0b0000000#7 rd rs1 rs2
  | .fence => 0x0FF0000F#32
  | .ecall => 0x00000073#32

end Sys2Proof
end

