-- ==== Sys2Proof/Config.lean ====
section
/-! DEFINITION. What the spec fixes for every run of the block (00_scope R7), and the values State.reset takes for the
parameters of R8. No value of the spec is left free for an instruction (93_implementation_defined: nothing is
unpredictable but the thirty reset values), so there is no free value here. -/

namespace Sys2Proof.Config

/-- `IO_PORT_ADDR`, the start address of an access that reaches the character port (R7, R61). -/
def ioPortAddr : Word := 0xA0001000#32

/-- The reset vector: `x[2]` is taken from the word at this address (R7, R312). -/
def spVector : Word := 0#32

/-- The reset vector: `pc` is taken from the word at this address (R7, R311). -/
def pcVector : Word := 4#32

/-- The image's first byte goes to this address (R7, R310). -/
def imageBase : Nat := 0

/-- The number of cells of the store (R31). -/
def cellCount : Nat := 2 ^ 32

/-- The default of `ALIGN_ENFORCE` (R8, R268). -/
def alignEnforceDefault : Bool := false

/-- DESIGN CHOICE (notes/assumptions/3.md), unsafe: the value State.reset gives x1 and x3 to x31, for which the spec gives
none (`INIT_REGS`, R8, R313). -/
def initReg : Word := 0#32

end Sys2Proof.Config
end

