-- ==== Sys2Proof/Machine/State.lean ====
section
/-! DEFINITION. The state of the block, as 10_state gives it (R20 to R36), the three fatal errors (60_exceptions R280 to
R284), the stops of a step, and the state after reset. -/

namespace Sys2Proof.Machine

/-- The width of an access: 1, 2 or 4 bytes (20_memory R52). -/
inductive AccessWidth where
  | byte | half | word
  deriving DecidableEq, Repr

/-- The two states of the engine; HALTED is terminal (R33). -/
inductive RunState where
  | running | halted
  deriving DecidableEq, Repr

/-- The three fatal errors with what they report (R280 to R284), both as the content of the fault record and as the host
outcome of a step that a recorded error makes impossible. -/
inductive Fault where
  /-- Recorded by a fetch, by LH LHU LW and by SH SW when ALIGN_ENFORCE is true and the address is not a multiple of the
  width (R283). Answered by `step` in every state that has it recorded, which is safe: the spec gives no step there. -/
  | unalignedAccess (address : Word) (width : AccessWidth)
  /-- Recorded when the fetched word has an opcode with a handler and a field value the handler refuses (R282). Answered by
  `step` in every state that has it recorded, which is safe: the spec gives no step there. -/
  | invalidEncoding (field : EncodingField) (value : Nat) (pc : Word)
  /-- Recorded when the opcode of the fetched word has no handler (R281). Answered by `step` in every state that has it
  recorded, which is safe: the spec gives no step there. -/
  | unimplementedOpcode (opcode : BitVec 7) (pc : Word)
  deriving DecidableEq, Repr

/-- The steps that do not exist and are no fault. -/
inductive Refusal where
  /-- Raised by an arm of `exec` whose instruction has no meaning yet; safe. No arm answers it. -/
  | notModelled (mnemonic : String)
  /-- Raised by `step` in a HALTED state, which has no step (00_scope R10, 10_state R33, 93 I16: "No step exists; not a
  fault"); safe. -/
  | halted
  deriving DecidableEq, Repr

/-- The byte store: the cells that do not hold 0, by rising address. An unlisted cell reads 0 (10_state R31). -/
abbrev Memory := List Host.Cell

/-- Every listed address is above `lo` (or at it), the addresses rise strictly and lie in the address space, and no listed
cell holds what an unlisted one reads as. -/
def Memory.wfFrom : Nat → Memory → Bool
  | _, [] => true
  | lo, (a, b) :: m => decide (lo ≤ a) && decide (a < Config.cellCount) && decide (b ≠ 0#8) && Memory.wfFrom (a + 1) m

/-- The canonical form of a memory. -/
def Memory.wf (m : Memory) : Bool := Memory.wfFrom 0 m

/-- The state of the block (10_state). -/
structure State where
  /-- `x[0]` to `x[31]` (R20). The slot of `x[0]` is neither read nor written (R21, R22; notes/assumptions/9.md). -/
  regs : Vector Word 32
  /-- The program counter (R26, R27). -/
  pc : Word
  /-- `sp_max`, the highest value written to register 2, or unset (R24, R25). -/
  spMax : Option Word
  /-- `sp_min`, the lowest value written to register 2, or unset (R24, R25). -/
  spMin : Option Word
  /-- The byte store (R31). -/
  mem : Memory
  /-- The count of completed instructions; it has no width (R32). -/
  cycles : Nat
  /-- RUNNING or HALTED (R33). -/
  run : RunState
  /-- The fault record, empty or one error (R33). -/
  fault : Option Fault
  /-- The bytes written to the port, in order (R34). -/
  out : List Byte
  /-- `INPUT` as far as the host has supplied it (00_scope R8, 51_interfaces R263; notes/assumptions/5.md). -/
  input : List Byte
  /-- The count of characters of `INPUT` consumed (R34). -/
  inPos : Nat
  /-- `ALIGN_ENFORCE`, constant over a run (00_scope R8, 20_memory R59; notes/assumptions/4.md). -/
  alignEnforce : Bool
  deriving DecidableEq, Repr

/-- The state when reset is released (R36), for the empty image, ALIGN_ENFORCE at its default, no character supplied and
every register of `INIT_REGS` at `Config.initReg` (notes/assumptions/3.md to 6.md). `State.boot` in Machine/Boot.lean is
reset for any image and any parameters. -/
def State.reset : State where
  regs := Vector.replicate 32 Config.initReg
  pc := 0#32
  spMax := some 0#32
  spMin := some 0#32
  mem := []
  cycles := 0
  run := .running
  fault := none
  out := []
  input := []
  inPos := 0
  alignEnforce := Config.alignEnforceDefault

end Sys2Proof.Machine
end

