-- ==== Sys2Proof/Machine/Memory.lean ====
section
/-! DEFINITION. The operations on the byte store alone (20_memory R50 to R56): one cell, and the little-endian values of 1,
2 and 4 bytes built from it. Neither the alignment test nor the port is here: Machine/Ops.lean has them. -/

namespace Sys2Proof.Machine

/-- The byte of a cell; an unlisted cell reads 0 (10_state R31). -/
def Memory.read : Memory → Nat → Byte
  | [], _ => 0#8
  | (k, b) :: m, a => if a = k then b else Memory.read m a

/-- Write one cell and keep the canonical form: writing 0 leaves the cell unlisted. -/
def Memory.write : Memory → Nat → Byte → Memory
  | [], a, v => if v = 0#8 then [] else [(a, v)]
  | (k, b) :: m, a, v =>
    if a < k then (if v = 0#8 then (k, b) :: m else (a, v) :: (k, b) :: m)
    else if a = k then (if v = 0#8 then m else (a, v) :: m)
    else (k, b) :: Memory.write m a v

/-- The number of bytes of an access (R52). -/
def AccessWidth.bytes : AccessWidth → Nat
  | .byte => 1
  | .half => 2
  | .word => 4

/-- The address of byte `i` of an access at `a`: `(a + i) mod 2^32` (R53, R54). -/
def byteAddr (a : Word) (i : Nat) : Nat := (a + BitVec.ofNat 32 i).toNat

/-- Byte `i` of a value, byte 0 being bits 7 to 0 (R53). -/
def byteOf (v : Word) (i : Nat) : Byte := v.extractLsb' (8 * i) 8

/-- The unsigned value of the `n` cells from `a`, little-endian (R53 to R55). -/
def Memory.readValue (m : Memory) (a : Word) : AccessWidth → Word
  | .byte => (m.read (byteAddr a 0)).setWidth 32
  | .half => (m.read (byteAddr a 1) ++ m.read (byteAddr a 0)).setWidth 32
  | .word => m.read (byteAddr a 3) ++ m.read (byteAddr a 2) ++ m.read (byteAddr a 1) ++ m.read (byteAddr a 0)

/-- Write the low `k` bytes of `v` to the cells from `a`, the lowest byte first. -/
def Memory.writeBytes (m : Memory) (a : Word) (v : Word) : Nat → Memory
  | 0 => m
  | k + 1 => (Memory.writeBytes m a v k).write (byteAddr a k) (byteOf v k)

/-- Write the low `8n` bits of `v` to the `n` cells from `a`, little-endian; the bits above are dropped (R56). -/
def Memory.writeValue (m : Memory) (a : Word) (n : AccessWidth) (v : Word) : Memory := m.writeBytes a v n.bytes

/-- Load the bytes of an image from address `a` on, outside any access by the hart: byte `i` goes to cell `a + i` (51_interfaces
R261, 70 R310). An image has at most 2^32 bytes; a longer list is cut there (notes/assumptions/11.md). -/
def Memory.load (m : Memory) (a : Nat) : List Byte → Memory
  | [] => m
  | b :: bs => if a < Config.cellCount then Memory.load (m.write a b) (a + 1) bs else m

end Sys2Proof.Machine
end

