-- ==== Sys2Proof/Machine/Ops.lean ====
section
/-! DEFINITION. The named operations on the state that the meanings share: registers with the watermarks (10_state R21 to
R25), `MemRead` and `MemWrite` with the alignment test and the port (20_memory R55 to R68), what an error leaves
(60_exceptions R286), and the engine's update of `pc`, `cycles` and `run` (50_execution_engine R243, R244). -/

namespace Sys2Proof.Machine

/-! ### Registers -/

/-- A register index is below the number of registers (R20). -/
theorem regIdx_lt (r : RegIdx) : r.toNat < 32 := r.isLt

/-- `x[r]`: `x[0]` is 0 always (R21). -/
def State.readReg (s : State) (r : RegIdx) : Word :=
  if r = 0#5 then 0#32 else s.regs[r.toNat]'(regIdx_lt r)

/-- Store a value in the register file; no watermark and no hardwired register here. -/
def State.setReg (s : State) (r : RegIdx) (v : Word) : State :=
  { s with regs := s.regs.set r.toNat v (regIdx_lt r) }

/-- The new maximum: unset is below every value (R24, R25). -/
def raiseMax (old : Option Word) (v : Word) : Option Word :=
  match old with
  | none => some v
  | some m => if m < v then some v else some m

/-- The new minimum: unset is above every value (R24, R25). -/
def lowerMin (old : Option Word) (v : Word) : Option Word :=
  match old with
  | none => some v
  | some m => if v < m then some v else some m

/-- Move the two watermarks for a value written to register 2, compared unsigned (R24). -/
def State.noteSp (s : State) (v : Word) : State :=
  { s with spMax := raiseMax s.spMax v, spMin := lowerMin s.spMin v }

/-- `x[r] <- v`: a write of `x[0]` does nothing (R22) and a write of `x[2]` also moves the watermarks (R24). -/
def State.writeReg (s : State) (r : RegIdx) (v : Word) : State :=
  if r = 0#5 then s
  else if r = 2#5 then (s.setReg r v).noteSp v
  else s.setReg r v

/-! ### Errors -/

/-- What a fatal error leaves: the record, and nothing else written (R286). -/
def State.raise (s : State) (f : Fault) : State := { s with fault := some f }

/-- The error that a word which is no instruction raises at `pc` (R281, R282). -/
def rejectFault (pc : Word) : Reject → Fault
  | .unimplementedOpcode op => .unimplementedOpcode op pc
  | .invalidEncoding field value => .invalidEncoding field value pc

/-! ### Memory and the port -/

/-- What a read answers: a value and the state after it, an error, or a wait for a character (R55, R66). -/
inductive ReadResult where
  | value (v : Word) (s : State)
  | fault (f : Fault)
  | hold

/-- What a write answers: the state after it, or an error (R56). -/
inductive WriteResult where
  | done (s : State)
  | fault (f : Fault)

/-- The address is not a multiple of the width (R59). -/
def misaligned (a : Word) (n : AccessWidth) : Bool := a.toNat % n.bytes != 0

/-- The alignment test of R55 and R56 fails: enforcement is on and the address is not a multiple of the width. -/
def State.alignmentFails (s : State) (a : Word) (n : AccessWidth) : Bool := s.alignEnforce && misaligned a n

/-- `PortRead`: take the next character, zero-extended, whatever the width; with none available, hold (R65, R66). -/
def State.portRead (s : State) : ReadResult :=
  match s.input[s.inPos]? with
  | some c => .value (c.setWidth 32) { s with inPos := s.inPos + 1 }
  | none => .hold

/-- `PortWrite`: emit the low 8 bits (R64). -/
def State.portWrite (s : State) (v : Word) : State := { s with out := s.out ++ [byteOf v 0] }

/-- `MemRead(a, n)` (R55): the alignment test, then the port test, then storage. -/
def State.memRead (s : State) (a : Word) (n : AccessWidth) : ReadResult :=
  if s.alignmentFails a n then .fault (.unalignedAccess a n)
  else if a = Config.ioPortAddr then s.portRead
  else .value (s.mem.readValue a n) s

/-- `MemWrite(a, n, v)` (R56): the alignment test, then the port test, then storage. -/
def State.memWrite (s : State) (a : Word) (n : AccessWidth) (v : Word) : WriteResult :=
  if s.alignmentFails a n then .fault (.unalignedAccess a n)
  else if a = Config.ioPortAddr then .done (s.portWrite v)
  else .done { s with mem := s.mem.writeValue a n v }

/-! ### The end of an instruction -/

/-- What a handler returns to the engine (50_execution_engine R242). -/
inductive Answer where
  /-- Nothing: fall through to `pc + 4`. -/
  | fallThrough
  /-- A concrete new program counter. -/
  | newPc (t : Word)
  /-- The halt signal. -/
  | halt
  deriving DecidableEq, Repr

/-- `pc + 4`, the next sequential address and the link value, modulo 2^32 (R27, 41_jumps R140). -/
def State.nextPc (s : State) : Word := s.pc + 4#32

/-- The engine's update after the handler: `pc`, the cycle counter and, on the halt signal, HALTED (R243, R244). -/
def State.retire (s : State) : Answer → State
  | .fallThrough => { s with pc := s.nextPc, cycles := s.cycles + 1 }
  | .newPc t => { s with pc := t, cycles := s.cycles + 1 }
  | .halt => { s with pc := s.nextPc, cycles := s.cycles + 1, run := .halted }

/-- An instruction that writes `x[rd]` and falls through. -/
def State.finish (s : State) (rd : RegIdx) (v : Word) : State := (s.writeReg rd v).retire .fallThrough

/-- The instruction fetch: a 4-byte read at `pc` like any other (50_execution_engine R241, 20_memory R68). -/
def State.fetch (s : State) : ReadResult := s.memRead s.pc .word

/-- Store a word in the four cells a fetch at `pc` reads (R53, R54). -/
def State.placeWord (s : State) (w : Word) : State := { s with mem := s.mem.writeValue s.pc .word w }

end Sys2Proof.Machine
end

