-- ==== Sys2Proof/Machine/Operands.lean ====
section
/-! DEFINITION. The operand forms the spec gives: sign-extended immediates (00_scope R12, 30_encoding R100), the effective
address of loads and stores (43_loads R166, 44_stores R181), branch and jump targets (42_branches R150, 41_jumps R141 and
R142), shift amounts (30_encoding R101, 46_arith_reg R213), and the extension of a loaded value (43_loads R166). -/

namespace Sys2Proof.Machine

/-- `sext_N(v) mod 2^32` for an `N`-bit value (R12). -/
def sext {n : Nat} (v : BitVec n) : Word := v.signExtend 32

/-- `(x[rs1] + sext_12(imm)) mod 2^32`: the effective address of a load or store (R166, R181, 20_memory R51). -/
def State.effectiveAddress (s : State) (rs1 : RegIdx) (imm : BitVec 12) : Word := s.readReg rs1 + sext imm

/-- The target of a jump or branch relative to `pc` (R141, R150). -/
def State.relativeTarget {n : Nat} (s : State) (imm : BitVec n) : Word := s.pc + sext imm

/-- The target of JALR; bit 0 is kept (R142). -/
def State.indirectTarget (s : State) (rs1 : RegIdx) (imm : BitVec 12) : Word := s.readReg rs1 + sext imm

/-- The low five bits of a register, the amount of a register shift (R213, R217, R218). -/
def shiftAmount (v : Word) : BitVec 5 := v.extractLsb' 0 5

/-- How a load extends the `8n`-bit value it has read (R166). -/
inductive Extension where
  | sign | zero
  deriving DecidableEq, Repr

/-- The 32-bit value a load writes: the low `8n` bits of what was read, sign- or zero-extended (R166). -/
def extendLoaded (n : AccessWidth) (e : Extension) (v : Word) : Word :=
  match n, e with
  | .byte, .sign => sext (v.setWidth 8)
  | .half, .sign => sext (v.setWidth 16)
  | .word, .sign => v
  | .byte, .zero => (v.setWidth 8).setWidth 32
  | .half, .zero => (v.setWidth 16).setWidth 32
  | .word, .zero => v

end Sys2Proof.Machine
end

