-- ==== Sys2Proof/Machine/Flags.lean ====
section
/-! DEFINITION. The block has no flags, condition codes or status bits (10_state R28): a comparison's result goes to a
register as 0 or 1, or decides a branch. This file holds the comparisons (42_branches R151 to R156, 45_arith_imm R201 (c)). -/

namespace Sys2Proof.Machine

/-- `signed(a) < signed(b)`, over the full 32 bits (R153, R201). -/
def ltSigned (a b : Word) : Bool := a.slt b

/-- `a < b` as unsigned 32-bit values (R155, R201). -/
def ltUnsigned (a b : Word) : Bool := a.ult b

/-- A comparison result in a register: exactly 0 or 1 (R192, R201). -/
def boolWord (c : Bool) : Word := if c then 1#32 else 0#32

end Sys2Proof.Machine
end

