-- ==== Sys2Proof/Machine/ArithImm.lean ====
section
/-! DEFINITION. The nine register-immediate operations (45_arith_imm). A bad shift encoding is no instruction: the decoder
refuses it before anything is read (R200). -/

namespace Sys2Proof.Machine

/-- ADDI (R191). -/
def execAddi (rd rs1 : RegIdx) (imm : BitVec 12) (s : State) : Host.Outcome State Fault Refusal :=
  .next (s.finish rd (s.readReg rs1 + sext imm))

/-- SLTI (R192): signed. -/
def execSlti (rd rs1 : RegIdx) (imm : BitVec 12) (s : State) : Host.Outcome State Fault Refusal :=
  .next (s.finish rd (boolWord (ltSigned (s.readReg rs1) (sext imm))))

/-- SLTIU (R193): the immediate is sign-extended, then both sides are read unsigned. -/
def execSltiu (rd rs1 : RegIdx) (imm : BitVec 12) (s : State) : Host.Outcome State Fault Refusal :=
  .next (s.finish rd (boolWord (ltUnsigned (s.readReg rs1) (sext imm))))

/-- XORI (R194). -/
def execXori (rd rs1 : RegIdx) (imm : BitVec 12) (s : State) : Host.Outcome State Fault Refusal :=
  .next (s.finish rd (s.readReg rs1 ^^^ sext imm))

/-- ORI (R195). -/
def execOri (rd rs1 : RegIdx) (imm : BitVec 12) (s : State) : Host.Outcome State Fault Refusal :=
  .next (s.finish rd (s.readReg rs1 ||| sext imm))

/-- ANDI (R196). -/
def execAndi (rd rs1 : RegIdx) (imm : BitVec 12) (s : State) : Host.Outcome State Fault Refusal :=
  .next (s.finish rd (s.readReg rs1 &&& sext imm))

/-- SLLI (R197). -/
def execSlli (rd rs1 : RegIdx) (shamt : BitVec 5) (s : State) : Host.Outcome State Fault Refusal :=
  .next (s.finish rd (s.readReg rs1 <<< shamt.toNat))

/-- SRLI (R198): zeros enter at the top. -/
def execSrli (rd rs1 : RegIdx) (shamt : BitVec 5) (s : State) : Host.Outcome State Fault Refusal :=
  .next (s.finish rd (s.readReg rs1 >>> shamt.toNat))

/-- SRAI (R199): copies of bit 31 enter at the top. -/
def execSrai (rd rs1 : RegIdx) (shamt : BitVec 5) (s : State) : Host.Outcome State Fault Refusal :=
  .next (s.finish rd ((s.readReg rs1).sshiftRight shamt.toNat))

end Sys2Proof.Machine
end

