-- ==== Sys2Proof/Machine/ArithReg.lean ====
section
/-! DEFINITION. The ten register-register operations (46_arith_reg). A bad `funct7` is no instruction: the decoder refuses
it before anything is read (R221). -/

namespace Sys2Proof.Machine

/-- ADD (R211). -/
def execAdd (rd rs1 rs2 : RegIdx) (s : State) : Host.Outcome State Fault Refusal :=
  .next (s.finish rd (s.readReg rs1 + s.readReg rs2))

/-- SUB (R212). -/
def execSub (rd rs1 rs2 : RegIdx) (s : State) : Host.Outcome State Fault Refusal :=
  .next (s.finish rd (s.readReg rs1 - s.readReg rs2))

/-- SLL (R213): the low five bits of `x[rs2]` count. -/
def execSll (rd rs1 rs2 : RegIdx) (s : State) : Host.Outcome State Fault Refusal :=
  .next (s.finish rd (s.readReg rs1 <<< (shiftAmount (s.readReg rs2)).toNat))

/-- SLT (R214): signed. -/
def execSlt (rd rs1 rs2 : RegIdx) (s : State) : Host.Outcome State Fault Refusal :=
  .next (s.finish rd (boolWord (ltSigned (s.readReg rs1) (s.readReg rs2))))

/-- SLTU (R215): unsigned. -/
def execSltu (rd rs1 rs2 : RegIdx) (s : State) : Host.Outcome State Fault Refusal :=
  .next (s.finish rd (boolWord (ltUnsigned (s.readReg rs1) (s.readReg rs2))))

/-- XOR (R216). -/
def execXor (rd rs1 rs2 : RegIdx) (s : State) : Host.Outcome State Fault Refusal :=
  .next (s.finish rd (s.readReg rs1 ^^^ s.readReg rs2))

/-- SRL (R217): zeros enter at the top. -/
def execSrl (rd rs1 rs2 : RegIdx) (s : State) : Host.Outcome State Fault Refusal :=
  .next (s.finish rd (s.readReg rs1 >>> (shiftAmount (s.readReg rs2)).toNat))

/-- SRA (R218): copies of bit 31 enter at the top. -/
def execSra (rd rs1 rs2 : RegIdx) (s : State) : Host.Outcome State Fault Refusal :=
  .next (s.finish rd ((s.readReg rs1).sshiftRight (shiftAmount (s.readReg rs2)).toNat))

/-- OR (R219). -/
def execOr (rd rs1 rs2 : RegIdx) (s : State) : Host.Outcome State Fault Refusal :=
  .next (s.finish rd (s.readReg rs1 ||| s.readReg rs2))

/-- AND (R220). -/
def execAnd (rd rs1 rs2 : RegIdx) (s : State) : Host.Outcome State Fault Refusal :=
  .next (s.finish rd (s.readReg rs1 &&& s.readReg rs2))

end Sys2Proof.Machine
end

