-- ==== Sys2Proof/Machine/Branches.lean ====
section
/-! DEFINITION. The six conditional branches (42_branches). -/

namespace Sys2Proof.Machine

/-- Go to `pc + sext_13(imm_B)` when the condition holds, else fall through; no register is written (R150). -/
def State.branch (s : State) (taken : Bool) (imm : BitVec 13) : State :=
  s.retire (if taken then .newPc (s.relativeTarget imm) else .fallThrough)

/-- BEQ (R151). -/
def execBeq (rs1 rs2 : RegIdx) (imm : BitVec 13) (s : State) : Host.Outcome State Fault Refusal :=
  .next (s.branch (s.readReg rs1 == s.readReg rs2) imm)

/-- BNE (R152). -/
def execBne (rs1 rs2 : RegIdx) (imm : BitVec 13) (s : State) : Host.Outcome State Fault Refusal :=
  .next (s.branch (s.readReg rs1 != s.readReg rs2) imm)

/-- BLT (R153). -/
def execBlt (rs1 rs2 : RegIdx) (imm : BitVec 13) (s : State) : Host.Outcome State Fault Refusal :=
  .next (s.branch (ltSigned (s.readReg rs1) (s.readReg rs2)) imm)

/-- BGE (R154): the exact complement of BLT. -/
def execBge (rs1 rs2 : RegIdx) (imm : BitVec 13) (s : State) : Host.Outcome State Fault Refusal :=
  .next (s.branch (!ltSigned (s.readReg rs1) (s.readReg rs2)) imm)

/-- BLTU (R155). -/
def execBltu (rs1 rs2 : RegIdx) (imm : BitVec 13) (s : State) : Host.Outcome State Fault Refusal :=
  .next (s.branch (ltUnsigned (s.readReg rs1) (s.readReg rs2)) imm)

/-- BGEU (R156): the exact complement of BLTU. -/
def execBgeu (rs1 rs2 : RegIdx) (imm : BitVec 13) (s : State) : Host.Outcome State Fault Refusal :=
  .next (s.branch (!ltUnsigned (s.readReg rs1) (s.readReg rs2)) imm)

end Sys2Proof.Machine
end

