-- ==== Sys2Proof/Machine/Jumps.lean ====
section
/-! DEFINITION. JAL and JALR (41_jumps). The target is computed before `x[rd]` is written, and neither tests its alignment
(R140). -/

namespace Sys2Proof.Machine

/-- Write the link `pc + 4` and go to a target computed before the write (R140, R142). -/
def State.jumpAndLink (s : State) (rd : RegIdx) (t : Word) : State := (s.writeReg rd s.nextPc).retire (.newPc t)

/-- JAL (R141): to `pc + sext_21(imm_J)`. -/
def execJal (rd : RegIdx) (imm : BitVec 21) (s : State) : Host.Outcome State Fault Refusal :=
  .next (s.jumpAndLink rd (s.relativeTarget imm))

/-- JALR (R142): to `x[rs1] + sext_12(imm_I)`, bit 0 kept. -/
def execJalr (rd rs1 : RegIdx) (imm : BitVec 12) (s : State) : Host.Outcome State Fault Refusal :=
  .next (s.jumpAndLink rd (s.indirectTarget rs1 imm))

end Sys2Proof.Machine
end

