-- ==== Sys2Proof/Machine/Loads.lean ====
section
/-! DEFINITION. The five loads (43_loads). -/

namespace Sys2Proof.Machine

/-- What the five loads share (R166, R172): `MemRead` at the effective address, then the extended value to `x[rd]`. An
unaligned access under enforcement records its error and writes nothing else (60_exceptions R286); a port read with no
character holds and changes nothing (20_memory R66; notes/assumptions/1.md). -/
def State.load (s : State) (n : AccessWidth) (e : Extension) (rd rs1 : RegIdx) (imm : BitVec 12) : State :=
  match s.memRead (s.effectiveAddress rs1 imm) n with
  | .value v s' => s'.finish rd (extendLoaded n e v)
  | .fault f => s.raise f
  | .hold => s

/-- LB (R167). -/
def execLb (rd rs1 : RegIdx) (imm : BitVec 12) (s : State) : Host.Outcome State Fault Refusal :=
  .next (s.load .byte .sign rd rs1 imm)

/-- LH (R168). -/
def execLh (rd rs1 : RegIdx) (imm : BitVec 12) (s : State) : Host.Outcome State Fault Refusal :=
  .next (s.load .half .sign rd rs1 imm)

/-- LW (R169). -/
def execLw (rd rs1 : RegIdx) (imm : BitVec 12) (s : State) : Host.Outcome State Fault Refusal :=
  .next (s.load .word .sign rd rs1 imm)

/-- LBU (R170). -/
def execLbu (rd rs1 : RegIdx) (imm : BitVec 12) (s : State) : Host.Outcome State Fault Refusal :=
  .next (s.load .byte .zero rd rs1 imm)

/-- LHU (R171). -/
def execLhu (rd rs1 : RegIdx) (imm : BitVec 12) (s : State) : Host.Outcome State Fault Refusal :=
  .next (s.load .half .zero rd rs1 imm)

end Sys2Proof.Machine
end

