-- ==== Sys2Proof/Machine/Stores.lean ====
section
/-! DEFINITION. The three stores (44_stores). -/

namespace Sys2Proof.Machine

/-- What the three stores share (R181, R185): `MemWrite` of `x[rs2]` at the effective address. An unaligned access under
enforcement records its error and writes nothing else (60_exceptions R286). -/
def State.store (s : State) (n : AccessWidth) (rs1 rs2 : RegIdx) (imm : BitVec 12) : State :=
  match s.memWrite (s.effectiveAddress rs1 imm) n (s.readReg rs2) with
  | .done s' => s'.retire .fallThrough
  | .fault f => s.raise f

/-- SB (R182). -/
def execSb (rs1 rs2 : RegIdx) (imm : BitVec 12) (s : State) : Host.Outcome State Fault Refusal :=
  .next (s.store .byte rs1 rs2 imm)

/-- SH (R183). -/
def execSh (rs1 rs2 : RegIdx) (imm : BitVec 12) (s : State) : Host.Outcome State Fault Refusal :=
  .next (s.store .half rs1 rs2 imm)

/-- SW (R184). -/
def execSw (rs1 rs2 : RegIdx) (imm : BitVec 12) (s : State) : Host.Outcome State Fault Refusal :=
  .next (s.store .word rs1 rs2 imm)

end Sys2Proof.Machine
end

