-- ==== Sys2Proof/Machine/System.lean ====
section
/-! DEFINITION. FENCE (47_fence) and ECALL (48_ecall). -/

namespace Sys2Proof.Machine

/-- FENCE (R231): a no-operation that advances `pc` and is counted. -/
def execFence (s : State) : Host.Outcome State Fault Refusal :=
  .next (s.retire .fallThrough)

/-- ECALL (R236): the halt signal; it advances `pc`, is counted, and the hart is HALTED. -/
def execEcall (s : State) : Host.Outcome State Fault Refusal :=
  .next (s.retire .halt)

end Sys2Proof.Machine
end

