-- ==== Sys2Proof/Machine/UpperImmediate.lean ====
section
/-! DEFINITION. LUI and AUIPC (40_upper_immediate). -/

namespace Sys2Proof.Machine

/-- LUI (R130): `x[rd] <- imm_U`. -/
def execLui (rd : RegIdx) (imm : BitVec 32) (s : State) : Host.Outcome State Fault Refusal :=
  .next (s.finish rd imm)

/-- AUIPC (R131): `x[rd] <- (imm_U + pc) mod 2^32`, `pc` being this instruction's address. -/
def execAuipc (rd : RegIdx) (imm : BitVec 32) (s : State) : Host.Outcome State Fault Refusal :=
  .next (s.finish rd (imm + s.pc))

end Sys2Proof.Machine
end

