-- ==== Sys2Proof/Machine/Engine.lean ====
section
/-! DEFINITION. The step of the execution engine (50_execution_engine R240 to R245): fetch, dispatch, execute. The handlers'
meanings (Machine/Dispatch.lean) already hold the engine's update of `pc`, `cycles` and `run` (`State.retire`). -/

namespace Sys2Proof.Machine

/-- Dispatch and execute a fetched word (R242): `p` is the address it was fetched from and `s` the state after the fetch. A
word that is no instruction records its error (60_exceptions R281, R282, R286). -/
def executeWord (p : Word) (w : Word) (s : State) : Host.Outcome State Fault Refusal :=
  match decode w with
  | .ok i => exec i s
  | .error r => .next (s.raise (rejectFault p r))

/-- One step of a hart that is RUNNING with no fault recorded (R245). A fetch that fails the alignment test records its
error; a fetch from the port with no character available holds: nothing changes and the same step is taken again
(20_memory R66; notes/assumptions/1.md). -/
def runningStep (s : State) : Host.Outcome State Fault Refusal :=
  match s.fetch with
  | .value w s' => executeWord s.pc w s'
  | .fault f => .next (s.raise f)
  | .hold => .next s

/-- One step (R245). A hart that has recorded a fault or is HALTED has no step (00_scope R10; notes/assumptions/2.md). -/
def engineStep (s : State) : Host.Outcome State Fault Refusal :=
  match s.fault with
  | some f => .fault f
  | none =>
    match s.run with
    | .halted => .refused .halted
    | .running => runningStep s

end Sys2Proof.Machine
end

