-- ==== Sys2Proof/Machine/Step.lean ====
section
/-! DEFINITION. The step of the machine, and the state whose next step runs a given word. -/

namespace Sys2Proof.Machine

/-- One step of the hart (50_execution_engine R245). -/
def step (s : State) : Host.Outcome State Fault Refusal := engineStep s

/-- `s` with the word whose low `nbits` bits are those of `w` in the four cells at `pc`. The next step fetches it when the
hart is RUNNING with no fault recorded, `pc` is not the port address and passes the alignment test; State.reset is such a
state (notes/assumptions/6.md). -/
def State.withFetchWord (s : State) (nbits w : Nat) : State := s.placeWord (tableWord nbits w)

end Sys2Proof.Machine
end

