-- ==== Sys2Proof/Machine/Boot.lean ====
section
/-! DEFINITION. What the host does to the block: the image load and the reset sequence (70_reset_and_hazards R310 to R313,
51_interfaces R261, R262), the supply of characters (R263) and the status it reads beside the fields of State (R266). -/

namespace Sys2Proof.Machine

/-- The store after the image load: `mem[a] = IMAGE[a]`, and 0 elsewhere (R310). -/
def Memory.ofImage (image : List Byte) : Memory := Memory.load [] Config.imageBase image

/-- The state at reset before register 2 is written: `pc` from the word at address 4 (R311), the watermarks unset (10_state
R25), and the rest of R313. -/
def State.beforeSp (image : List Byte) (initRegs : Vector Word 32) (alignEnforce : Bool) (input : List Byte) : State where
  regs := initRegs
  pc := (Memory.ofImage image).readValue Config.pcVector .word
  spMax := none
  spMin := none
  mem := Memory.ofImage image
  cycles := 0
  run := .running
  fault := none
  out := []
  input := input
  inPos := 0
  alignEnforce := alignEnforce

/-- The state when reset is released, for any image, any `INIT_REGS` (the entries of `x[0]` and `x[2]` are not used), either
alignment setting and the characters supplied so far: `x[2]` is written from the word at address 0, which sets both
watermarks (R310 to R313). -/
def State.boot (image : List Byte) (initRegs : Vector Word 32) (alignEnforce : Bool) (input : List Byte) : State :=
  (State.beforeSp image initRegs alignEnforce input).writeReg 2#5 ((Memory.ofImage image).readValue Config.spVector .word)

/-- The host supplies more characters; they wait behind those not yet consumed (R263). -/
def State.supply (s : State) (cs : List Byte) : State := { s with input := s.input ++ cs }

/-- "Deepest stack use", the difference of the watermarks (R266, 10_state R25); unset before register 2 is written. -/
def State.deepestStackUse (s : State) : Option Word :=
  match s.spMax, s.spMin with
  | some hi, some lo => some (hi - lo)
  | _, _ => none

end Sys2Proof.Machine
end

