-- ==== Sys2Proof/Safety.lean ====
section
/-! DEFINITION. The terms statements are written in: the invariant of the machine, what a step may be (00_scope R10), what
an instruction leaves unchanged (the frame table, 10_state R37), and the values of the spec's pseudocode over integers,
written apart from the operations of Machine/ that compute them. -/

namespace Sys2Proof.Machine

/-! ### The invariant -/

/-- `sp_min <= x[2] <= sp_max`, both set (10_state R25). -/
def State.watermarksBracket (s : State) : Bool :=
  match s.spMin, s.spMax with
  | some lo, some hi => decide (lo ≤ s.readReg 2#5) && decide (s.readReg 2#5 ≤ hi)
  | _, _ => false

/-- What holds at every instruction boundary: memory in its canonical form (the model's own), the watermarks around `x[2]`
(10_state R25), no more characters consumed than supplied (20_memory R65), and a faulted hart is RUNNING in the record, so
never HALTED (60_exceptions R286). -/
def State.inv (s : State) : Bool :=
  s.mem.wf && s.watermarksBracket && decide (s.inPos ≤ s.input.length) && (s.fault.isNone || s.run == .running)

/-- The hart has a step: RUNNING with no fault recorded (10_state R33). -/
def State.canStep (s : State) : Bool := s.run == .running && s.fault.isNone

/-- A run is safe as long as no fatal error is recorded (60_exceptions R286: a claim of normal ending takes "no fault
recorded" as part of what it proves). -/
def State.safe (s : State) : Bool := s.fault.isNone

/-! ### Frames -/

/-- Every cell reads as before. -/
def SameCells (s t : State) : Prop := ∀ a : Nat, t.mem.read a = s.mem.read a

/-- The port's histories are as before: nothing emitted, nothing consumed. -/
def SamePort (s t : State) : Prop := t.out = s.out ∧ t.inPos = s.inPos

/-- Every register and both watermarks are as before. -/
def SameRegisters (s t : State) : Prop :=
  (∀ r : RegIdx, t.readReg r = s.readReg r) ∧ t.spMax = s.spMax ∧ t.spMin = s.spMin

/-- The fault record, the supplied input and the alignment setting are as before. -/
def SameRecord (s t : State) : Prop :=
  t.fault = s.fault ∧ t.input = s.input ∧ t.alignEnforce = s.alignEnforce

/-- `x[rd] <- v` and no other register: `x[0]` stays 0 (10_state R22), and a write of `x[2]` moves the two watermarks by
unsigned comparison (R24), which nothing else moves. -/
def WritesRegister (s t : State) (rd : RegIdx) (v : Word) : Prop :=
  (∀ r : RegIdx, t.readReg r = if r = rd ∧ r ≠ 0#5 then v else s.readReg r) ∧
  (rd ≠ 2#5 → t.spMax = s.spMax ∧ t.spMin = s.spMin) ∧
  (rd = 2#5 →
    (s.spMax = none → t.spMax = some v) ∧ (∀ m, s.spMax = some m → t.spMax = some (if m.toNat < v.toNat then v else m)) ∧
    (s.spMin = none → t.spMin = some v) ∧ (∀ m, s.spMin = some m → t.spMin = some (if v.toNat < m.toNat then v else m)))

/-- The instruction completed and the hart goes on at `target` (50_execution_engine R243, R244). -/
def CompletesAt (s t : State) (target : Word) : Prop :=
  t.pc = target ∧ t.cycles = s.cycles + 1 ∧ t.run = s.run ∧ SameRecord s t

/-- `exec i s` answers a next state in which `x[rd]` has the value `v`, the hart goes on at `target`, and nothing else has
changed. -/
def RegisterInstr (i : Instr) (s : State) (rd : RegIdx) (v target : Word) : Prop :=
  ∃ t, exec i s = .next t ∧ WritesRegister s t rd v ∧ CompletesAt s t target ∧ SameCells s t ∧ SamePort s t

/-- `exec i s` answers a next state in which the hart goes on at `target`, and nothing else has changed. -/
def PcOnlyInstr (i : Instr) (s : State) (target : Word) : Prop :=
  ∃ t, exec i s = .next t ∧ CompletesAt s t target ∧ SameRegisters s t ∧ SameCells s t ∧ SamePort s t

/-- `exec i s`, a load whose `MemRead` leaves the state `s'`, answers a next state in which `x[rd]` has the value `v`, the input
position is that of `s'`, the hart goes on at `pc + 4`, and nothing else has changed. -/
def LoadInstr (i : Instr) (s s' : State) (rd : RegIdx) (v : Word) : Prop :=
  ∃ t, exec i s = .next t ∧ WritesRegister s t rd v ∧ CompletesAt s t (s.pc + 4#32) ∧ SameCells s t ∧
    t.out = s.out ∧ t.inPos = s'.inPos

/-- `exec i s`, a load from the port, answers a next state in which `x[rd]` has the value `v`, one character is consumed, the
hart goes on at `pc + 4`, and nothing else has changed (20_memory R65). -/
def PortLoadInstr (i : Instr) (s : State) (rd : RegIdx) (v : Word) : Prop :=
  ∃ t, exec i s = .next t ∧ WritesRegister s t rd v ∧ CompletesAt s t (s.pc + 4#32) ∧ SameCells s t ∧
    t.out = s.out ∧ t.inPos = s.inPos + 1

/-- `exec i s`, a store to the port, answers a next state in which one byte, `v mod 256`, is emitted, the hart goes on at
`pc + 4`, and nothing else has changed (20_memory R64). -/
def PortStoreInstr (i : Instr) (s : State) (v : Word) : Prop :=
  ∃ t, exec i s = .next t ∧ CompletesAt s t (s.pc + 4#32) ∧ SameRegisters s t ∧ SameCells s t ∧
    t.out = s.out ++ [BitVec.ofNat 8 (v.toNat % 256)] ∧ t.inPos = s.inPos

/-- `exec i s` records a fatal error and makes no other write (60_exceptions R286). -/
def RecordsFault (i : Instr) (s : State) (f : Fault) : Prop := exec i s = .next { s with fault := some f }

/-- `exec i s` answers a next state in which the low `n` bytes of `v` stand in the `n` cells from `ea`, little-endian and
wrapping at the top of the address space; every other cell and everything else but `pc` and `cycles` is as before. -/
def StoreInstr (i : Instr) (s : State) (ea : Word) (n : Nat) (v : Word) : Prop :=
  ∃ t, exec i s = .next t ∧ CompletesAt s t (s.pc + 4#32) ∧ SameRegisters s t ∧ SamePort s t ∧
    (∀ k < n, t.mem.read ((ea.toNat + k) % 2 ^ 32) = BitVec.ofNat 8 (v.toNat / 256 ^ k)) ∧
    (∀ a : Nat, (∀ k < n, a ≠ (ea.toNat + k) % 2 ^ 32) → t.mem.read a = s.mem.read a)

/-! ### Which words are an instruction (30_encoding) -/

/-- Every word with this opcode decodes to the instruction `i` makes of its fields (R103). -/
def OpcodeSelects (op : Nat) (i : Word → Instr) : Prop := ∀ w : Word, w.toNat % 2 ^ 7 = op → decode w = .ok (i w)

/-- Every word with this opcode and `funct3` decodes to the instruction `i` makes of its fields (R105 to R108). -/
def Funct3Selects (op f3 : Nat) (i : Word → Instr) : Prop :=
  ∀ w : Word, w.toNat % 2 ^ 7 = op → w.toNat / 2 ^ 12 % 2 ^ 3 = f3 → decode w = .ok (i w)

/-- Every word with this opcode, `funct3` and bits 31 to 25 decodes to the instruction `i` makes of its fields (R108, R109). -/
def Funct7Selects (op f3 f7 : Nat) (i : Word → Instr) : Prop :=
  ∀ w : Word, w.toNat % 2 ^ 7 = op → w.toNat / 2 ^ 12 % 2 ^ 3 = f3 → w.toNat / 2 ^ 25 = f7 → decode w = .ok (i w)

/-- The error that dispatch or a handler's field check raises for the word `w` fetched at `p`, or none (R113). -/
def raisedBy (p w : Word) : Option Fault :=
  match decode w with
  | .ok _ => none
  | .error r => some (rejectFault p r)

/-! ### The frame table (10_state R37) -/

/-- The register a group of R37 writes, `x[rd]`, or none. -/
def destination : Instr → Option RegIdx
  | .lui rd _ => some rd
  | .auipc rd _ => some rd
  | .jal rd _ => some rd
  | .jalr rd _ _ => some rd
  | .beq _ _ _ => none
  | .bne _ _ _ => none
  | .blt _ _ _ => none
  | .bge _ _ _ => none
  | .bltu _ _ _ => none
  | .bgeu _ _ _ => none
  | .lb rd _ _ => some rd
  | .lh rd _ _ => some rd
  | .lw rd _ _ => some rd
  | .lbu rd _ _ => some rd
  | .lhu rd _ _ => some rd
  | .sb _ _ _ => none
  | .sh _ _ _ => none
  | .sw _ _ _ => none
  | .addi rd _ _ => some rd
  | .slti rd _ _ => some rd
  | .sltiu rd _ _ => some rd
  | .xori rd _ _ => some rd
  | .ori rd _ _ => some rd
  | .andi rd _ _ => some rd
  | .slli rd _ _ => some rd
  | .srli rd _ _ => some rd
  | .srai rd _ _ => some rd
  | .add rd _ _ => some rd
  | .sub rd _ _ => some rd
  | .sll rd _ _ => some rd
  | .slt rd _ _ => some rd
  | .sltu rd _ _ => some rd
  | .xor rd _ _ => some rd
  | .srl rd _ _ => some rd
  | .sra rd _ _ => some rd
  | .or rd _ _ => some rd
  | .and rd _ _ => some rd
  | .fence => none
  | .ecall => none

/-- The base register, the offset and the width of a Store. -/
def storeOperands : Instr → Option (RegIdx × BitVec 12 × Nat)
  | .sb rs1 _ imm => some (rs1, imm, 1)
  | .sh rs1 _ imm => some (rs1, imm, 2)
  | .sw rs1 _ imm => some (rs1, imm, 4)
  | _ => none

/-- The instruction is a Load. -/
def isLoad : Instr → Bool
  | .lb _ _ _ => true
  | .lh _ _ _ => true
  | .lw _ _ _ => true
  | .lbu _ _ _ => true
  | .lhu _ _ _ => true
  | _ => false

/-! ### Values of the spec's pseudocode -/

/-- `x[i]` as an unsigned integer (00_scope R13). -/
def State.unsignedReg (s : State) (r : RegIdx) : Int := (s.readReg r).toNat

/-- `signed(x[i])` (00_scope R13). -/
def State.signedReg (s : State) (r : RegIdx) : Int := (s.readReg r).toInt

/-- `sext_N(v)` as an integer: `v` if bit `N-1` is 0, else `v - 2^N` (00_scope R12). -/
def sextInt {n : Nat} (v : BitVec n) : Int :=
  if v.toNat < 2 ^ (n - 1) then (v.toNat : Int) else (v.toNat : Int) - (2 ^ n : Nat)

/-- An integer reduced modulo 2^32 (00_scope R13). -/
def mod32 (x : Int) : Word := BitVec.ofInt 32 x

/-- "1 if ... else 0" (45_arith_imm R192). -/
def oneIf (p : Prop) [Decidable p] : Word := if p then 1#32 else 0#32

/-- The sum over `i < n` of `mem[(a + i) mod 2^32] * 2^(8*i)` (20_memory R55). -/
def cellSum (m : Memory) (a : Word) : Nat → Nat
  | 0 => 0
  | k + 1 => cellSum m a k + (m.read ((a.toNat + k) % 2 ^ 32)).toNat * 256 ^ k

/-- An access of `n` bytes at `a` passes the alignment test (20_memory R59). -/
def State.accessAllowed (s : State) (a : Word) (n : Nat) : Prop := s.alignEnforce = true → a.toNat % n = 0

/-- The four cells at `pc` (wrapping at the top of the address space) as the decoder reads them, lowest address first
(50_execution_engine R241, 20_memory R53, R54). -/
def State.decodeAtPc (s : State) : Except Reject Instr :=
  decodeBytes (s.mem.read (s.pc.toNat % 2 ^ 32)) (s.mem.read ((s.pc.toNat + 1) % 2 ^ 32))
    (s.mem.read ((s.pc.toNat + 2) % 2 ^ 32)) (s.mem.read ((s.pc.toNat + 3) % 2 ^ 32))

/-- The character the next port read takes, when the host has supplied it (20_memory R65). -/
def State.nextChar (s : State) : Option Byte := s.input[s.inPos]?

end Sys2Proof.Machine
end

