-- ==== Sys2Proof/WellFormed.lean ====
section
/-! DEFINITION. Which terms of `Instr` are instructions a word can encode: the immediate of a branch and of JAL has bit 0
clear (30_encoding R97, R99) and the immediate of LUI and AUIPC has its low 12 bits clear (R98). Every other operand may
hold any value of its width. -/

namespace Sys2Proof

/-- `imm_B` and `imm_J` have bit 0 always 0 (R97, R99). -/
def evenImm {n : Nat} (imm : BitVec n) : Bool := !imm.getLsbD 0

/-- `imm_U` has its low 12 bits zero (R98). -/
def upperImm (imm : BitVec 32) : Bool := imm.extractLsb' 0 12 == 0#12

/-- The instruction is the decoding of some word. -/
def WellFormed : Instr → Bool
  | .lui _ imm => upperImm imm
  | .auipc _ imm => upperImm imm
  | .jal _ imm => evenImm imm
  | .jalr _ _ _ => true
  | .beq _ _ imm => evenImm imm
  | .bne _ _ imm => evenImm imm
  | .blt _ _ imm => evenImm imm
  | .bge _ _ imm => evenImm imm
  | .bltu _ _ imm => evenImm imm
  | .bgeu _ _ imm => evenImm imm
  | .lb _ _ _ => true
  | .lh _ _ _ => true
  | .lw _ _ _ => true
  | .lbu _ _ _ => true
  | .lhu _ _ _ => true
  | .sb _ _ _ => true
  | .sh _ _ _ => true
  | .sw _ _ _ => true
  | .addi _ _ _ => true
  | .slti _ _ _ => true
  | .sltiu _ _ _ => true
  | .xori _ _ _ => true
  | .ori _ _ _ => true
  | .andi _ _ _ => true
  | .slli _ _ _ => true
  | .srli _ _ _ => true
  | .srai _ _ _ => true
  | .add _ _ _ => true
  | .sub _ _ _ => true
  | .sll _ _ _ => true
  | .slt _ _ _ => true
  | .sltu _ _ _ => true
  | .xor _ _ _ => true
  | .srl _ _ _ => true
  | .sra _ _ _ => true
  | .or _ _ _ => true
  | .and _ _ _ => true
  | .fence => true
  | .ecall => true

end Sys2Proof
end

