-- ==== Sys2Proof/Certificates/Slice0/Obligations.lean ====
section
/-! DEFINITION. The statements for the provers. Each formalises rules of spec/ named in its docstring and in
OBLIGATIONS.json. The terms they are written in are those of Sys2Proof/Safety.lean. -/

open Sys2Proof Sys2Proof.Machine

/-! ### Encoding (30_encoding) -/

/-- Decode and encode agree: for every well-formed instruction, at every value of every operand, the decoder reads the
encoder's word back as that instruction (R93 to R102, R105 to R109). Which word is canonical where a handler ignores bits is the
model's choice (notes/assumptions/8.md). -/
def Obligations.DecodeEncodeRoundTrip : Prop :=
  ∀ i : Instr, WellFormed i = true → decode (encode i) = .ok i

/-- Whatever the decoder answers is well-formed: the low bits of `imm_B`, `imm_J` and `imm_U` are zero (R97, R98, R99). -/
def Obligations.DecodedInstructionIsWellFormed : Prop :=
  ∀ (w : Word) (i : Instr), decode w = .ok i → WellFormed i = true

/-- The decoder drops no bit the instruction has: the canonical word of the decoded instruction is the word itself, but for
`funct3` of a JALR word and bits 31 to 7 of a FENCE or ECALL word, which the handler ignores (R110, R111, R112). The canonical word is the model's choice (notes/assumptions/8.md). -/
def Obligations.DecodeDropsOnlyIgnoredBits : Prop :=
  ∀ (w : Word) (i : Instr), decode w = .ok i →
    match i with
    | .jalr _ _ _ => encode i &&& 0xFFFF8FFF#32 = w &&& 0xFFFF8FFF#32
    | .fence => w &&& 0x0000007F#32 = 0x0000000F#32
    | .ecall => w &&& 0x0000007F#32 = 0x00000073#32
    | _ => encode i = w

/-- What becomes of every word `w` fetched at `p` (R113): (a) an opcode outside R102 raises UnimplementedOpcode with the
opcode value and `p` (60_exceptions R281); (b) the listed patterns raise InvalidEncoding with the offending field, its value
and `p`; (c) anything else executes. -/
def Obligations.EveryWordExecutesOrRaises : Prop :=
  ∀ p w : Word,
    if w.toNat % 128 ∉ [0x03, 0x0F, 0x13, 0x17, 0x23, 0x33, 0x37, 0x63, 0x67, 0x6F, 0x73] then
      raisedBy p w = some (.unimplementedOpcode (BitVec.ofNat 7 (w.toNat % 128)) p)
    else if w &&& 0x0000607F#32 = 0x00002063#32 ∨ w &&& 0x0000707F#32 = 0x00003003#32 ∨
        w &&& 0x0000607F#32 = 0x00006003#32 ∨ w &&& 0x0000707F#32 = 0x00003023#32 ∨ w &&& 0x0000407F#32 = 0x00004023#32 then
      raisedBy p w = some (.invalidEncoding .funct3 (w.toNat / 2 ^ 12 % 8) p)
    else if (w &&& 0x0000707F#32 = 0x00001013#32 ∧ w.toNat / 2 ^ 25 ≠ 0) ∨
        (w &&& 0x0000707F#32 = 0x00005013#32 ∧ w.toNat / 2 ^ 25 ≠ 0 ∧ w.toNat / 2 ^ 25 ≠ 0x20) then
      raisedBy p w = some (.invalidEncoding .immHi7 (w.toNat / 2 ^ 25) p)
    else if (w &&& 0x0000007F#32 = 0x00000033#32 ∧ w.toNat / 2 ^ 25 ≠ 0 ∧ w.toNat / 2 ^ 25 ≠ 0x20) ∨
        (w &&& 0xFE00007F#32 = 0x40000033#32 ∧ w.toNat / 2 ^ 12 % 8 ≠ 0 ∧ w.toNat / 2 ^ 12 % 8 ≠ 5) then
      raisedBy p w = some (.invalidEncoding .funct7 (w.toNat / 2 ^ 25) p)
    else raisedBy p w = none ∧ ∃ i, decode w = .ok i ∧ ∀ s : State, executeWord p w s = exec i s

/-- Every value of `funct3` executes JALR, and every word with the Fence or the ECall opcode executes as FENCE or ECALL; the
canonical encodings have `funct3 = 000`, `0x0FF0000F` and `0x00000073` (R110, R111, R112). -/
def Obligations.IgnoredFieldsDoNotSelect : Prop :=
  OpcodeSelects 0x67 (fun w => .jalr (rdOf w) (rs1Of w) (immIOf w)) ∧
  OpcodeSelects 0x0F (fun _ => .fence) ∧
  OpcodeSelects 0x73 (fun _ => .ecall) ∧
  (∀ rd rs1 imm, funct3Of (encode (.jalr rd rs1 imm)) = 0#3) ∧ encode .fence = 0x0FF0000F#32 ∧
  encode .ecall = 0x00000073#32

/-- Words written out from the encoding tables, bit 31 first, decode to the instructions they stand for: at least one of
each of the eleven groups (R94 to R99, R101, R102, R105 to R109; examples of 40 to 48). -/
def Obligations.WrittenWordsDecode : Prop :=
  decode 0b00010010001101000101_00101_0110111#32 = .ok (.lui 5 0x12345000#32) ∧
  decode 0b00000000000000000001_00101_0010111#32 = .ok (.auipc 5 0x00001000#32) ∧
  decode 0b1_1111110110_1_11111111_00000_1101111#32 = .ok (.jal 0 0x1FFFEC#21) ∧
  decode 0b000000001000_00001_000_00001_1100111#32 = .ok (.jalr 1 1 0x008#12) ∧
  decode 0b1_111111_00000_00101_001_1100_1_1100011#32 = .ok (.bne 5 0 0x1FF8#13) ∧
  decode 0b111111111100_00110_010_00101_0000011#32 = .ok (.lw 5 6 0xFFC#12) ∧
  decode 0b1111111_00101_00110_010_11100_0100011#32 = .ok (.sw 6 5 0xFFC#12) ∧
  decode 0b111111111111_00000_000_00001_0010011#32 = .ok (.addi 1 0 0xFFF#12) ∧
  decode 0b0100000_11111_00110_101_00101_0010011#32 = .ok (.srai 5 6 31#5) ∧
  decode 0b0100000_00111_00110_000_00101_0110011#32 = .ok (.sub 5 6 7) ∧
  decode 0b0000_1111_1111_00000_000_00000_0001111#32 = .ok .fence ∧
  decode 0b000000000000_00000_000_00000_1110011#32 = .ok .ecall

/-- `extract_bitfield(w, msb, lsb) = (w >> lsb) mod 2^(msb-lsb+1)` (00_scope R11). -/
def Obligations.BitfieldIsShiftedRemainder : Prop :=
  ∀ (w : Word) (msb lsb : Nat), lsb ≤ msb → msb ≤ 31 →
    (extractBitfield w msb lsb).toNat = w.toNat / 2 ^ lsb % 2 ^ (msb - lsb + 1)

/-- The fields of a word (R93) and the five immediates as the unsigned values their bit ranges give (R95, R96, R97, R98,
R99), and the shift amount with the selector above it (R101). -/
def Obligations.ImmediatesAreReassembled : Prop :=
  ∀ w : Word,
    (opcodeOf w).toNat = w.toNat % 2 ^ 7 ∧ (rdOf w).toNat = w.toNat / 2 ^ 7 % 2 ^ 5 ∧
    (funct3Of w).toNat = w.toNat / 2 ^ 12 % 2 ^ 3 ∧ (rs1Of w).toNat = w.toNat / 2 ^ 15 % 2 ^ 5 ∧
    (rs2Of w).toNat = w.toNat / 2 ^ 20 % 2 ^ 5 ∧ (funct7Of w).toNat = w.toNat / 2 ^ 25 ∧
    (immIOf w).toNat = w.toNat / 2 ^ 20 ∧
    (immSOf w).toNat = w.toNat / 2 ^ 25 * 2 ^ 5 + w.toNat / 2 ^ 7 % 2 ^ 5 ∧
    (immBOf w).toNat = w.toNat / 2 ^ 31 * 2 ^ 12 + w.toNat / 2 ^ 7 % 2 * 2 ^ 11 + w.toNat / 2 ^ 25 % 2 ^ 6 * 2 ^ 5 +
      w.toNat / 2 ^ 8 % 2 ^ 4 * 2 ∧
    (immUOf w).toNat = w.toNat - w.toNat % 2 ^ 12 ∧
    (immJOf w).toNat = w.toNat / 2 ^ 31 * 2 ^ 20 + w.toNat / 2 ^ 12 % 2 ^ 8 * 2 ^ 12 + w.toNat / 2 ^ 20 % 2 * 2 ^ 11 +
      w.toNat / 2 ^ 21 % 2 ^ 10 * 2 ∧
    (shamtOf w).toNat = (immIOf w).toNat % 2 ^ 5 ∧
    (funct7Of w).toNat = (immIOf w).toNat / 2 ^ 5

/-- Sign extension subtracts `2^N` when bit `N-1` is set, and equals shifting left and then arithmetically right over 32
bits (00_scope R12). -/
def Obligations.SignExtensionSubtracts : Prop :=
  ∀ (n : Nat) (v : BitVec n), 1 ≤ n → n ≤ 32 →
    sext v = mod32 (sextInt v) ∧ sext v = ((v.setWidth 32) <<< (32 - n)).sshiftRight (32 - n)

/-! ### Reset and the invariant (10_state, 70_reset_and_hazards) -/

/-- Reset with any image of the spec's length, any `INIT_REGS`, either alignment setting and any supplied input leaves every
piece of state at the value of the table R36: the store holds the image and 0 elsewhere (R310), `pc` and `x[2]` come from the
little-endian words at 4 and 0, with missing bytes 0, and `x[2]` is the first value the watermarks see (R311, R312), and the
rest is as R313 says. -/
def Obligations.BootLeavesResetTable : Prop :=
  ∀ (image : List Byte) (initRegs : Vector Word 32) (enforce : Bool) (input : List Byte), image.length ≤ 2 ^ 32 →
    let s := State.boot image initRegs enforce input
    let byte := fun a : Nat => ((image[a]?).getD 0#8).toNat
    (∀ a < 2 ^ 32, s.mem.read a = (image[a]?).getD 0#8) ∧
    s.readReg 0#5 = 0#32 ∧
    s.readReg 2#5 = BitVec.ofNat 32 (byte 0 + 2 ^ 8 * byte 1 + 2 ^ 16 * byte 2 + 2 ^ 24 * byte 3) ∧
    (∀ r : RegIdx, r ≠ 0#5 → r ≠ 2#5 → s.readReg r = initRegs[r.toNat]'(regIdx_lt r)) ∧
    s.pc = BitVec.ofNat 32 (byte 4 + 2 ^ 8 * byte 5 + 2 ^ 16 * byte 6 + 2 ^ 24 * byte 7) ∧
    s.spMax = some (s.readReg 2#5) ∧ s.spMin = some (s.readReg 2#5) ∧
    s.cycles = 0 ∧ s.run = .running ∧ s.fault = none ∧ s.out = [] ∧ s.inPos = 0

/-- The machine's reset state is reset with the empty image, ALIGN_ENFORCE at its default and no character supplied. That
the thirty registers of `INIT_REGS` are zero in it is the model's choice (notes/assumptions/3.md), as are the empty image
(6.md) and the empty input (5.md). -/
def Obligations.ResetIsBootOfEmptyImage : Prop :=
  State.reset = State.boot [] (Vector.replicate 32 0#32) false []

/-- The invariant holds at reset. -/
def Obligations.InvariantHoldsAtReset : Prop := State.reset.inv = true

/-- The invariant holds after reset with any image and parameters; and the alignment setting and the supplied characters,
which the model keeps in State (notes/assumptions/4.md and 5.md), are those given. -/
def Obligations.InvariantHoldsAfterAnyBoot : Prop :=
  ∀ (image : List Byte) (initRegs : Vector Word 32) (enforce : Bool) (input : List Byte),
    let s := State.boot image initRegs enforce input
    s.inv = true ∧ s.alignEnforce = enforce ∧ s.input = input

/-- Every step keeps the invariant, from every state that meets it: memory stays in the model's canonical form
(notes/assumptions/12.md), the watermarks stay
around `x[2]` (R24, R25), no more characters are consumed than supplied (20_memory R65), and a faulted hart is RUNNING in
the record (60_exceptions R286). -/
def Obligations.StepKeepsInvariant : Prop :=
  ∀ s t : State, s.inv = true → step s = .next t → t.inv = true

/-- A register write (10_state R22, R24): `x[r] <- v` stores `v` in `x[r]` unless `r` is 0, a write of `x[2]` moves the two
watermarks by unsigned comparison, and nothing else changes. -/
def Obligations.RegisterWriteFollowsRules : Prop :=
  ∀ (s : State) (r : RegIdx) (v : Word),
    let t := s.writeReg r v
    WritesRegister s t r v ∧ t.pc = s.pc ∧ t.cycles = s.cycles ∧ t.run = s.run ∧ SameRecord s t ∧ SameCells s t ∧ SamePort s t

/-! ### Memory and the port (20_memory) -/

/-- `MemRead` (R55): the alignment test, then the port (a character, zero-extended and consumed, or the wait of R65 and
R66), then the little-endian sum over the cells, wrapping at the top of the address space. -/
def Obligations.MemReadFollowsPseudocode : Prop :=
  ∀ (s : State) (a : Word) (n : AccessWidth),
    s.memRead a n =
      if s.alignEnforce = true ∧ a.toNat % n.bytes ≠ 0 then .fault (.unalignedAccess a n)
      else if a = 0xA0001000#32 then
        match s.nextChar with
        | some c => .value (BitVec.ofNat 32 c.toNat) { s with inPos := s.inPos + 1 }
        | none => .hold
      else .value (BitVec.ofNat 32 (cellSum s.mem a n.bytes)) s

/-- `MemWrite` (R56): the alignment test, then the port (one byte emitted, R64), then the cells, wrapping at the top of the
address space; bits above `8n - 1` are dropped and every other cell is unchanged. -/
def Obligations.MemWriteFollowsPseudocode : Prop :=
  ∀ (s : State) (a : Word) (n : AccessWidth) (v : Word), s.mem.wf = true →
    if s.alignEnforce = true ∧ a.toNat % n.bytes ≠ 0 then s.memWrite a n v = .fault (.unalignedAccess a n)
    else if a = 0xA0001000#32 then
      s.memWrite a n v = .done { s with out := s.out ++ [BitVec.ofNat 8 (v.toNat % 256)] }
    else ∃ m : Memory, s.memWrite a n v = .done { s with mem := m } ∧
      (∀ i < n.bytes, m.read ((a.toNat + i) % 2 ^ 32) = BitVec.ofNat 8 (v.toNat / 2 ^ (8 * i) % 256)) ∧
      (∀ b : Nat, (∀ i < n.bytes, b ≠ (a.toNat + i) % 2 ^ 32) → m.read b = s.mem.read b)

/-- Store then load (R57): a value written at a storage address that passes the alignment test reads back as its low `8n`
bits at the same width; at one that does not, both accesses fault. -/
def Obligations.WriteThenReadReturnsLowBits : Prop :=
  ∀ (s : State) (a : Word) (n : AccessWidth) (v : Word), s.mem.wf = true → a ≠ 0xA0001000#32 →
    (s.accessAllowed a n.bytes →
      ∃ t, s.memWrite a n v = .done t ∧ t.memRead a n = .value (BitVec.ofNat 32 (v.toNat % 2 ^ (8 * n.bytes))) t) ∧
    (¬ s.accessAllowed a n.bytes →
      s.memWrite a n v = .fault (.unalignedAccess a n) ∧ s.memRead a n = .fault (.unalignedAccess a n))

/-! ### LUI and AUIPC (40_upper_immediate) -/

/-- LUI writes `imm_U` and AUIPC `imm_U + pc` modulo 2^32; both fall through and change nothing else (R130, R131). Every word
with the opcode is the instruction. -/
def Obligations.UpperImmediateResults : Prop :=
  OpcodeSelects 0x37 (fun w => .lui (rdOf w) (immUOf w)) ∧
  OpcodeSelects 0x17 (fun w => .auipc (rdOf w) (immUOf w)) ∧
  ∀ (s : State) (rd : RegIdx) (imm : BitVec 32),
    RegisterInstr (.lui rd imm) s rd (BitVec.ofNat 32 imm.toNat) (s.pc + 4#32) ∧
    RegisterInstr (.auipc rd imm) s rd (BitVec.ofNat 32 ((imm.toNat + s.pc.toNat) % 2 ^ 32)) (s.pc + 4#32)

/-- LUI then ADDI build any constant (R132): with `lo` the low 12 bits of `c` and `hi = c - sext(lo)`, whose low 12 bits are
zero and whose upper 20 are one more than those of `c` when bit 11 of `c` is set. -/
def Obligations.LuiThenAddiBuildsConstant : Prop :=
  ∀ (s : State) (rd : RegIdx) (c : Word), rd ≠ 0#5 →
    let lo : BitVec 12 := c.extractLsb' 0 12
    let hi : Word := mod32 ((c.toNat : Int) - sextInt lo)
    WellFormed (.lui rd hi) = true ∧
    (c.getLsbD 11 = true → hi.toNat / 2 ^ 12 = (c.toNat / 2 ^ 12 + 1) % 2 ^ 20) ∧
    ∃ t u, exec (.lui rd hi) s = .next t ∧ exec (.addi rd rd lo) t = .next u ∧ u.readReg rd = c

/-! ### Jumps (41_jumps) -/

/-- JAL (R141): link `pc + 4` in `x[rd]`, target `pc + sext_21(imm_J)`, both modulo 2^32. Every word with the opcode is JAL. -/
def Obligations.JalLinksAndJumps : Prop :=
  OpcodeSelects 0x6F (fun w => .jal (rdOf w) (immJOf w)) ∧
  ∀ (s : State) (rd : RegIdx) (imm : BitVec 21),
    RegisterInstr (.jal rd imm) s rd (mod32 ((s.pc.toNat : Int) + 4)) (mod32 ((s.pc.toNat : Int) + sextInt imm))

/-- JALR (R142): the target is `x[rs1] + sext_12(imm_I)` with `x[rs1]` read before the link is written, and bit 0 is kept.
Every word with the opcode is JALR. -/
def Obligations.JalrLinksAndJumpsKeepingBitZero : Prop :=
  OpcodeSelects 0x67 (fun w => .jalr (rdOf w) (rs1Of w) (immIOf w)) ∧
  ∀ (s : State) (rd rs1 : RegIdx) (imm : BitVec 12),
    RegisterInstr (.jalr rd rs1 imm) s rd (mod32 ((s.pc.toNat : Int) + 4)) (mod32 (s.unsignedReg rs1 + sextInt imm))

/-! ### Branches (42_branches) -/

/-- The six branches (R150 to R156): `pc + sext_13(imm_B)` when the condition holds on the old registers, else `pc + 4`; no
register and no cell changes. -/
def Obligations.BranchesFollowTheirConditions : Prop :=
  Funct3Selects 0x63 0 (fun w => .beq (rs1Of w) (rs2Of w) (immBOf w)) ∧
  Funct3Selects 0x63 1 (fun w => .bne (rs1Of w) (rs2Of w) (immBOf w)) ∧
  Funct3Selects 0x63 4 (fun w => .blt (rs1Of w) (rs2Of w) (immBOf w)) ∧
  Funct3Selects 0x63 5 (fun w => .bge (rs1Of w) (rs2Of w) (immBOf w)) ∧
  Funct3Selects 0x63 6 (fun w => .bltu (rs1Of w) (rs2Of w) (immBOf w)) ∧
  Funct3Selects 0x63 7 (fun w => .bgeu (rs1Of w) (rs2Of w) (immBOf w)) ∧
  ∀ (s : State) (rs1 rs2 : RegIdx) (imm : BitVec 13),
    let taken : Word := mod32 ((s.pc.toNat : Int) + sextInt imm)
    let next : Word := mod32 ((s.pc.toNat : Int) + 4)
    PcOnlyInstr (.beq rs1 rs2 imm) s (if s.unsignedReg rs1 = s.unsignedReg rs2 then taken else next) ∧
    PcOnlyInstr (.bne rs1 rs2 imm) s (if s.unsignedReg rs1 ≠ s.unsignedReg rs2 then taken else next) ∧
    PcOnlyInstr (.blt rs1 rs2 imm) s (if s.signedReg rs1 < s.signedReg rs2 then taken else next) ∧
    PcOnlyInstr (.bge rs1 rs2 imm) s (if s.signedReg rs1 ≥ s.signedReg rs2 then taken else next) ∧
    PcOnlyInstr (.bltu rs1 rs2 imm) s (if s.unsignedReg rs1 < s.unsignedReg rs2 then taken else next) ∧
    PcOnlyInstr (.bgeu rs1 rs2 imm) s (if s.unsignedReg rs1 ≥ s.unsignedReg rs2 then taken else next)

/-! ### Loads and stores (43_loads, 44_stores) -/

/-- The effective address of a load or store is `x[rs1] + sext_12(imm)` modulo 2^32 (20_memory R51). -/
def Obligations.EffectiveAddressWraps : Prop :=
  ∀ (s : State) (rs1 : RegIdx) (imm : BitVec 12), s.effectiveAddress rs1 imm = mod32 (s.unsignedReg rs1 + sextInt imm)

/-- The five loads (R167 to R171): whenever `MemRead` at the effective address and the load's width answers `v`, the load
completes and writes `v` to `x[rd]`, sign- or zero-extended from that width; `MemRead` is 20_memory R55. -/
def Obligations.LoadsWriteWhatMemReadReturns : Prop :=
  Funct3Selects 0x03 0 (fun w => .lb (rdOf w) (rs1Of w) (immIOf w)) ∧
  Funct3Selects 0x03 1 (fun w => .lh (rdOf w) (rs1Of w) (immIOf w)) ∧
  Funct3Selects 0x03 2 (fun w => .lw (rdOf w) (rs1Of w) (immIOf w)) ∧
  Funct3Selects 0x03 4 (fun w => .lbu (rdOf w) (rs1Of w) (immIOf w)) ∧
  Funct3Selects 0x03 5 (fun w => .lhu (rdOf w) (rs1Of w) (immIOf w)) ∧
  ∀ (s s' : State) (rd rs1 : RegIdx) (imm : BitVec 12) (v : Word),
    let ea := mod32 (s.unsignedReg rs1 + sextInt imm)
    (s.memRead ea .byte = .value v s' →
      LoadInstr (.lb rd rs1 imm) s s' rd (mod32 (sextInt (BitVec.ofNat 8 v.toNat))) ∧
      LoadInstr (.lbu rd rs1 imm) s s' rd (BitVec.ofNat 32 (v.toNat % 2 ^ 8))) ∧
    (s.memRead ea .half = .value v s' →
      LoadInstr (.lh rd rs1 imm) s s' rd (mod32 (sextInt (BitVec.ofNat 16 v.toNat))) ∧
      LoadInstr (.lhu rd rs1 imm) s s' rd (BitVec.ofNat 32 (v.toNat % 2 ^ 16))) ∧
    (s.memRead ea .word = .value v s' → LoadInstr (.lw rd rs1 imm) s s' rd v)

/-- The five loads from storage (R167 to R171), at an address that passes the alignment test of the load's width: the sum
over the cells, sign- or zero-extended from its width, goes to `x[rd]`; nothing else changes, no character is consumed. -/
def Obligations.LoadsFromStorage : Prop :=
  ∀ (s : State) (rd rs1 : RegIdx) (imm : BitVec 12),
    let ea := s.effectiveAddress rs1 imm
    ea = mod32 (s.unsignedReg rs1 + sextInt imm) ∧
    (ea ≠ 0xA0001000#32 →
      RegisterInstr (.lb rd rs1 imm) s rd (mod32 (sextInt (BitVec.ofNat 8 (cellSum s.mem ea 1)))) (s.pc + 4#32) ∧
      RegisterInstr (.lbu rd rs1 imm) s rd (BitVec.ofNat 32 (cellSum s.mem ea 1)) (s.pc + 4#32) ∧
      (s.accessAllowed ea 2 →
        RegisterInstr (.lh rd rs1 imm) s rd (mod32 (sextInt (BitVec.ofNat 16 (cellSum s.mem ea 2)))) (s.pc + 4#32) ∧
        RegisterInstr (.lhu rd rs1 imm) s rd (BitVec.ofNat 32 (cellSum s.mem ea 2)) (s.pc + 4#32)) ∧
      (s.accessAllowed ea 4 →
        RegisterInstr (.lw rd rs1 imm) s rd (BitVec.ofNat 32 (cellSum s.mem ea 4)) (s.pc + 4#32)))

/-- What a load from the port returns when a character `c` is available (20_memory R67): LB gives `sext_8(c)`, the others
`c`; one character is consumed at every width (R65). -/
def Obligations.LoadsFromPort : Prop :=
  ∀ (s : State) (rd rs1 : RegIdx) (imm : BitVec 12) (c : Byte),
    s.effectiveAddress rs1 imm = 0xA0001000#32 → s.nextChar = some c →
    PortLoadInstr (.lb rd rs1 imm) s rd (mod32 (sextInt c)) ∧
    PortLoadInstr (.lh rd rs1 imm) s rd (BitVec.ofNat 32 c.toNat) ∧
    PortLoadInstr (.lw rd rs1 imm) s rd (BitVec.ofNat 32 c.toNat) ∧
    PortLoadInstr (.lbu rd rs1 imm) s rd (BitVec.ofNat 32 c.toNat) ∧
    PortLoadInstr (.lhu rd rs1 imm) s rd (BitVec.ofNat 32 c.toNat)

/-- A load from the port with no character available changes nothing (20_memory R66). That the hold is a next state equal
to the state before is the model's form of it (notes/assumptions/1.md). -/
def Obligations.LoadFromEmptyPortHolds : Prop :=
  ∀ (s : State) (rd rs1 : RegIdx) (imm : BitVec 12),
    s.effectiveAddress rs1 imm = 0xA0001000#32 → s.nextChar = none →
    exec (.lb rd rs1 imm) s = .next s ∧ exec (.lh rd rs1 imm) s = .next s ∧ exec (.lw rd rs1 imm) s = .next s ∧
    exec (.lbu rd rs1 imm) s = .next s ∧ exec (.lhu rd rs1 imm) s = .next s

/-- Under enforcement LH, LHU and SH at an odd address and LW and SW at an address not a multiple of 4 record
UnalignedAccess with the address and the width, and make no other write (60_exceptions R283, R286). That the state with the
record is a host next state is the model's choice (notes/assumptions/1.md). -/
def Obligations.MisalignedDataAccessRecordsFault : Prop :=
  ∀ (s : State) (r rs1 : RegIdx) (imm : BitVec 12), s.alignEnforce = true →
    let ea := s.effectiveAddress rs1 imm
    (ea.toNat % 2 ≠ 0 →
      RecordsFault (.lh r rs1 imm) s (.unalignedAccess ea .half) ∧
      RecordsFault (.lhu r rs1 imm) s (.unalignedAccess ea .half) ∧
      RecordsFault (.sh rs1 r imm) s (.unalignedAccess ea .half)) ∧
    (ea.toNat % 4 ≠ 0 →
      RecordsFault (.lw r rs1 imm) s (.unalignedAccess ea .word) ∧
      RecordsFault (.sw rs1 r imm) s (.unalignedAccess ea .word))

/-- The three stores to storage (R182 to R184), at an address that passes the alignment test of the store's width: the low
1, 2 or 4 bytes of `x[rs2]`, little-endian; every other cell, every register and the port's histories are unchanged. -/
def Obligations.StoresToStorage : Prop :=
  Funct3Selects 0x23 0 (fun w => .sb (rs1Of w) (rs2Of w) (immSOf w)) ∧
  Funct3Selects 0x23 1 (fun w => .sh (rs1Of w) (rs2Of w) (immSOf w)) ∧
  Funct3Selects 0x23 2 (fun w => .sw (rs1Of w) (rs2Of w) (immSOf w)) ∧
  ∀ (s : State) (rs1 rs2 : RegIdx) (imm : BitVec 12), s.mem.wf = true →
    let ea := s.effectiveAddress rs1 imm
    ea = mod32 (s.unsignedReg rs1 + sextInt imm) ∧
    (ea ≠ 0xA0001000#32 →
      StoreInstr (.sb rs1 rs2 imm) s ea 1 (s.readReg rs2) ∧
      (s.accessAllowed ea 2 → StoreInstr (.sh rs1 rs2 imm) s ea 2 (s.readReg rs2)) ∧
      (s.accessAllowed ea 4 → StoreInstr (.sw rs1 rs2 imm) s ea 4 (s.readReg rs2)))

/-- A store to the port emits one byte, `x[rs2] mod 256`, at every width, and changes no cell (20_memory R64). -/
def Obligations.StoresToPort : Prop :=
  ∀ (s : State) (rs1 rs2 : RegIdx) (imm : BitVec 12), s.effectiveAddress rs1 imm = 0xA0001000#32 →
    PortStoreInstr (.sb rs1 rs2 imm) s (s.readReg rs2) ∧
    PortStoreInstr (.sh rs1 rs2 imm) s (s.readReg rs2) ∧
    PortStoreInstr (.sw rs1 rs2 imm) s (s.readReg rs2)

/-! ### Register-immediate arithmetic (45_arith_imm) -/

/-- ADDI, SLTI, SLTIU (R191 to R193): the sum modulo 2^32, the signed comparison, and the unsigned comparison with the
immediate sign-extended first. -/
def Obligations.AddAndCompareImmediate : Prop :=
  Funct3Selects 0x13 0 (fun w => .addi (rdOf w) (rs1Of w) (immIOf w)) ∧
  Funct3Selects 0x13 2 (fun w => .slti (rdOf w) (rs1Of w) (immIOf w)) ∧
  Funct3Selects 0x13 3 (fun w => .sltiu (rdOf w) (rs1Of w) (immIOf w)) ∧
  ∀ (s : State) (rd rs1 : RegIdx) (imm : BitVec 12),
    RegisterInstr (.addi rd rs1 imm) s rd (mod32 (s.unsignedReg rs1 + sextInt imm)) (s.pc + 4#32) ∧
    RegisterInstr (.slti rd rs1 imm) s rd (oneIf (s.signedReg rs1 < sextInt imm)) (s.pc + 4#32) ∧
    RegisterInstr (.sltiu rd rs1 imm) s rd (oneIf (s.unsignedReg rs1 < sextInt imm % 2 ^ 32)) (s.pc + 4#32)

/-- XORI, ORI, ANDI (R194 to R196), bit by bit over 32 bits with the sign-extended immediate. -/
def Obligations.BitwiseImmediate : Prop :=
  Funct3Selects 0x13 4 (fun w => .xori (rdOf w) (rs1Of w) (immIOf w)) ∧
  Funct3Selects 0x13 6 (fun w => .ori (rdOf w) (rs1Of w) (immIOf w)) ∧
  Funct3Selects 0x13 7 (fun w => .andi (rdOf w) (rs1Of w) (immIOf w)) ∧
  ∀ (s : State) (rd rs1 : RegIdx) (imm : BitVec 12),
    RegisterInstr (.xori rd rs1 imm) s rd (s.readReg rs1 ^^^ mod32 (sextInt imm)) (s.pc + 4#32) ∧
    RegisterInstr (.ori rd rs1 imm) s rd (s.readReg rs1 ||| mod32 (sextInt imm)) (s.pc + 4#32) ∧
    RegisterInstr (.andi rd rs1 imm) s rd (s.readReg rs1 &&& mod32 (sextInt imm)) (s.pc + 4#32)

/-- SLLI, SRLI, SRAI (R197 to R199): the product by `2^shamt` modulo 2^32, the quotient of the unsigned value, and the floor
of the quotient of the signed value. -/
def Obligations.ShiftImmediate : Prop :=
  Funct7Selects 0x13 1 0 (fun w => .slli (rdOf w) (rs1Of w) (shamtOf w)) ∧
  Funct7Selects 0x13 5 0 (fun w => .srli (rdOf w) (rs1Of w) (shamtOf w)) ∧
  Funct7Selects 0x13 5 0x20 (fun w => .srai (rdOf w) (rs1Of w) (shamtOf w)) ∧
  ∀ (s : State) (rd rs1 : RegIdx) (shamt : BitVec 5),
    RegisterInstr (.slli rd rs1 shamt) s rd (mod32 (s.unsignedReg rs1 * 2 ^ shamt.toNat)) (s.pc + 4#32) ∧
    RegisterInstr (.srli rd rs1 shamt) s rd (mod32 (s.unsignedReg rs1 / 2 ^ shamt.toNat)) (s.pc + 4#32) ∧
    RegisterInstr (.srai rd rs1 shamt) s rd (mod32 (s.signedReg rs1 / 2 ^ shamt.toNat)) (s.pc + 4#32)

/-! ### Register-register arithmetic (46_arith_reg) -/

/-- ADD, SUB, SLT, SLTU (R211, R212, R214, R215), from the old values whatever registers coincide. There is no
subtract-immediate: every ArithImm word with `funct3 = 000` is ADDI whatever bits 31 to 25 hold (R212). -/
def Obligations.AddSubtractAndCompareRegisters : Prop :=
  Funct3Selects 0x13 0 (fun w => .addi (rdOf w) (rs1Of w) (immIOf w)) ∧
  Funct7Selects 0x33 0 0 (fun w => .add (rdOf w) (rs1Of w) (rs2Of w)) ∧
  Funct7Selects 0x33 0 0x20 (fun w => .sub (rdOf w) (rs1Of w) (rs2Of w)) ∧
  Funct7Selects 0x33 2 0 (fun w => .slt (rdOf w) (rs1Of w) (rs2Of w)) ∧
  Funct7Selects 0x33 3 0 (fun w => .sltu (rdOf w) (rs1Of w) (rs2Of w)) ∧
  ∀ (s : State) (rd rs1 rs2 : RegIdx),
    RegisterInstr (.add rd rs1 rs2) s rd (mod32 (s.unsignedReg rs1 + s.unsignedReg rs2)) (s.pc + 4#32) ∧
    RegisterInstr (.sub rd rs1 rs2) s rd (mod32 (s.unsignedReg rs1 - s.unsignedReg rs2)) (s.pc + 4#32) ∧
    RegisterInstr (.slt rd rs1 rs2) s rd (oneIf (s.signedReg rs1 < s.signedReg rs2)) (s.pc + 4#32) ∧
    RegisterInstr (.sltu rd rs1 rs2) s rd (oneIf (s.unsignedReg rs1 < s.unsignedReg rs2)) (s.pc + 4#32)

/-- XOR, OR, AND (R216, R219, R220), bit by bit. -/
def Obligations.BitwiseRegisters : Prop :=
  Funct7Selects 0x33 4 0 (fun w => .xor (rdOf w) (rs1Of w) (rs2Of w)) ∧
  Funct7Selects 0x33 6 0 (fun w => .or (rdOf w) (rs1Of w) (rs2Of w)) ∧
  Funct7Selects 0x33 7 0 (fun w => .and (rdOf w) (rs1Of w) (rs2Of w)) ∧
  ∀ (s : State) (rd rs1 rs2 : RegIdx),
    RegisterInstr (.xor rd rs1 rs2) s rd (s.readReg rs1 ^^^ s.readReg rs2) (s.pc + 4#32) ∧
    RegisterInstr (.or rd rs1 rs2) s rd (s.readReg rs1 ||| s.readReg rs2) (s.pc + 4#32) ∧
    RegisterInstr (.and rd rs1 rs2) s rd (s.readReg rs1 &&& s.readReg rs2) (s.pc + 4#32)

/-- SLL, SRL, SRA (R213, R217, R218): only the low five bits of `x[rs2]` count. -/
def Obligations.ShiftRegisters : Prop :=
  Funct7Selects 0x33 1 0 (fun w => .sll (rdOf w) (rs1Of w) (rs2Of w)) ∧
  Funct7Selects 0x33 5 0 (fun w => .srl (rdOf w) (rs1Of w) (rs2Of w)) ∧
  Funct7Selects 0x33 5 0x20 (fun w => .sra (rdOf w) (rs1Of w) (rs2Of w)) ∧
  ∀ (s : State) (rd rs1 rs2 : RegIdx),
    let amount := (s.readReg rs2).toNat % 32
    RegisterInstr (.sll rd rs1 rs2) s rd (mod32 (s.unsignedReg rs1 * 2 ^ amount)) (s.pc + 4#32) ∧
    RegisterInstr (.srl rd rs1 rs2) s rd (mod32 (s.unsignedReg rs1 / 2 ^ amount)) (s.pc + 4#32) ∧
    RegisterInstr (.sra rd rs1 rs2) s rd (mod32 (s.signedReg rs1 / 2 ^ amount)) (s.pc + 4#32)

/-! ### FENCE and ECALL (47_fence, 48_ecall) -/

/-- FENCE advances `pc`, counts one cycle and does nothing else; every word with the opcode is FENCE, and the canonical word
is `0x0FF0000F` (R231). -/
def Obligations.FenceOnlyAdvances : Prop :=
  OpcodeSelects 0x0F (fun _ => .fence) ∧ encode .fence = 0x0FF0000F#32 ∧
  ∀ s : State, PcOnlyInstr .fence s (mod32 ((s.pc.toNat : Int) + 4))

/-- ECALL advances `pc` by 4, is counted, halts the hart and does nothing else; after it the hart takes no further step. Every
word with the opcode is ECALL, and the canonical word is `0x00000073` (R236). -/
def Obligations.EcallHaltsAndCounts : Prop :=
  OpcodeSelects 0x73 (fun _ => .ecall) ∧ encode .ecall = 0x00000073#32 ∧
  ∀ s : State, ∃ t, exec .ecall s = .next t ∧ t.pc = mod32 ((s.pc.toNat : Int) + 4) ∧ t.cycles = s.cycles + 1 ∧
    t.run = .halted ∧ SameRecord s t ∧ SameRegisters s t ∧ SameCells s t ∧ SamePort s t ∧ (∀ u, step t ≠ .next u)

/-! ### The execution engine (50_execution_engine, 60_exceptions) -/

/-- A step runs the decoded instruction: when the four cells at `pc` decode to `i`, the step is `exec` of `i` at that very
state (R241, R242, R245). `exec` holds the engine's update of `pc`, `cycles` and `run`. -/
def Obligations.StepRunsDecodedInstruction : Prop :=
  ∀ (s : State) (i : Instr), s.canStep = true → s.pc ≠ 0xA0001000#32 → s.accessAllowed s.pc 4 →
    s.decodeAtPc = .ok i → step s = exec i s

/-- A step whose fetched word is no instruction records the error at `pc` and makes no other write (60_exceptions R281, R282,
R286). That the state with the record is a host next state is the model's choice (notes/assumptions/1.md). -/
def Obligations.RejectedWordRecordsFault : Prop :=
  ∀ (s : State) (r : Reject), s.canStep = true → s.pc ≠ 0xA0001000#32 → s.accessAllowed s.pc 4 →
    s.decodeAtPc = .error r → step s = .next { s with fault := some (rejectFault s.pc r) }

/-- Under enforcement a fetch from a `pc` that is not a multiple of 4 records UnalignedAccess and makes no other write,
whatever the cells hold (20_memory R59, 60_exceptions R285). That the state with the record is a host next state is the model's
choice (notes/assumptions/1.md). -/
def Obligations.MisalignedFetchRecordsFault : Prop :=
  ∀ s : State, s.canStep = true → s.alignEnforce = true → s.pc.toNat % 4 ≠ 0 →
    step s = .next { s with fault := some (.unalignedAccess s.pc .word) }

/-- A fetch at the port address (20_memory R68): the next character is the word. If it is an instruction, that is executed;
if not, the error is recorded; the character is consumed either way. With no character the step holds. The forms of the hold
and of the recorded error are the model's choice (notes/assumptions/1.md). -/
def Obligations.FetchFromPortExecutesCharacter : Prop :=
  ∀ s : State, s.canStep = true → s.pc = 0xA0001000#32 →
    match s.nextChar with
    | none => step s = .next s
    | some c =>
      match decode (BitVec.ofNat 32 c.toNat) with
      | .ok i => step s = exec i { s with inPos := s.inPos + 1 }
      | .error r => step s = .next { s with inPos := s.inPos + 1, fault := some (rejectFault s.pc r) }

/-- A faulted hart and a HALTED hart have no step (10_state R33). The two host outcomes are the model's form of that
(notes/assumptions/2.md). -/
def Obligations.StoppedHartHasNoStep : Prop :=
  ∀ s : State, (∀ f, s.fault = some f → step s = .fault f) ∧
    (s.fault = none → s.run = .halted → step s = .refused .halted)

/-- A hart that is RUNNING and not faulted always has a step, and it is exactly one of four (00_scope R10,
50_execution_engine R248): it completes an instruction and goes on RUNNING, it completes a halting word, it faults and
leaves everything else as it was but for the character a port fetch consumed, or it holds at a port with no character and
changes nothing. The four exclude each other by `cycles`, `run` and `fault`. The forms of the last two are the model's choice
(notes/assumptions/1.md). -/
def Obligations.RunningStepHasOneOfFourOutcomes : Prop :=
  ∀ s : State, s.canStep = true → ∃ t, step s = .next t ∧
    ((t.fault = none ∧ t.run = .running ∧ t.cycles = s.cycles + 1) ∨
     (t.fault = none ∧ t.run = .halted ∧ t.cycles = s.cycles + 1) ∨
     (∃ f, t = { s with fault := some f, inPos := if s.pc = 0xA0001000#32 then s.inPos + 1 else s.inPos }) ∨
     (t = s ∧ s.nextChar = none))

/-- What an error leaves (60_exceptions R286): the step that records one has made no other write but the consumption of the
character a fetch from the port took, and from then on the hart has no step, which the model shows as the host outcome fault
(notes/assumptions/2.md). -/
def Obligations.FaultingStepWritesOnlyTheRecord : Prop :=
  ∀ (s t : State) (f : Fault), s.canStep = true → step s = .next t → t.fault = some f →
    t = { s with fault := some f, inPos := if s.pc = 0xA0001000#32 then s.inPos + 1 else s.inPos } ∧ t.run = .running ∧
    step t = .fault f

/-- Only a word of the ECall group halts the hart (50_execution_engine R248 (a)), and each one does (30_encoding R112). -/
def Obligations.OnlyEcallWordsHalt : Prop :=
  ∀ s t : State, s.canStep = true → step s = .next t →
    (t.run = .halted ↔ ∃ w s', s.fetch = .value w s' ∧ w.toNat % 128 = 0x73)

/-- No step changes the configuration or what the host has supplied (51_interfaces R268: no instruction reads or writes
ALIGN_ENFORCE). That the two stand in State is the model's choice (notes/assumptions/4.md and 5.md). -/
def Obligations.ConfigurationIsConstant : Prop :=
  ∀ s t : State, step s = .next t → t.alignEnforce = s.alignEnforce ∧ t.input = s.input

/-- A step consumes at most one character, and only one the host has supplied; it emits at most one byte, behind those
emitted before (20_memory R64, R65, R73). -/
def Obligations.PortHistoriesOnlyGrow : Prop :=
  ∀ s t : State, step s = .next t →
    (t.inPos = s.inPos ∨ (t.inPos = s.inPos + 1 ∧ s.inPos < s.input.length)) ∧
    (t.out = s.out ∨ ∃ b, t.out = s.out ++ [b])

/-- Characters that wait behind the one a step takes do not enter that step (51_interfaces R263): a step that does not hold
is the same step, with the same result, however many more characters the host has supplied. That the supplied characters
stand in State is the model's choice (notes/assumptions/5.md). -/
def Obligations.WaitingCharactersDoNotEnterTheStep : Prop :=
  ∀ (s t : State) (cs : List Byte), step s = .next t → t ≠ s → step (s.supply cs) = .next (t.supply cs)

/-- The supply of a character lifts a hold (20_memory R66): the same step then completes, halts or faults. That a
hold is a next state equal to the state before is the model's choice (notes/assumptions/1.md). -/
def Obligations.SupplyLiftsHold : Prop :=
  ∀ (s : State) (c : Byte) (cs : List Byte), s.inv = true → step s = .next s →
    ∃ t, step (s.supply (c :: cs)) = .next t ∧ t ≠ s.supply (c :: cs) ∧ t.inPos = s.inPos + 1

/-- The frame table (10_state R37), for every instruction: no register but `x[rd]` changes, and of the watermarks only with
`rd = 2`; only a Store changes cells, those its effective address and width cover, or `out`; only a Load from the port
consumes a character; only ECALL changes `run`; nothing changes the input or the configuration. A faulting instruction
writes only `fault` (as a host next state, the model's choice: notes/assumptions/1.md). -/
def Obligations.FrameTableHolds : Prop :=
  ∀ (i : Instr) (s t : State), exec i s = .next t →
    (∀ r, destination i ≠ some r → t.readReg r = s.readReg r) ∧
    (destination i ≠ some 2#5 → t.spMax = s.spMax ∧ t.spMin = s.spMin) ∧
    (storeOperands i = none → SameCells s t ∧ t.out = s.out) ∧
    (∀ rs1 imm n, storeOperands i = some (rs1, imm, n) →
      ∀ a : Nat, (∀ k < n, a ≠ ((s.effectiveAddress rs1 imm).toNat + k) % 2 ^ 32) → t.mem.read a = s.mem.read a) ∧
    (isLoad i = false → t.inPos = s.inPos) ∧
    (i ≠ .ecall → t.run = s.run) ∧
    t.input = s.input ∧ t.alignEnforce = s.alignEnforce ∧
    (t.fault ≠ s.fault → ∃ f, t = { s with fault := some f })

/-- Fetch is coherent with stores (20_memory R75): the word that SW stores at the next instruction's address is the
instruction the next step executes, with no fence between. -/
def Obligations.StoredWordIsExecutedNext : Prop :=
  ∀ (s t : State) (rs1 rs2 : RegIdx) (imm : BitVec 12) (i : Instr), s.canStep = true → s.mem.wf = true →
    s.effectiveAddress rs1 imm = s.pc + 4#32 → s.pc + 4#32 ≠ 0xA0001000#32 → s.accessAllowed (s.pc + 4#32) 4 →
    decode (s.readReg rs2) = .ok i → exec (.sw rs1 rs2 imm) s = .next t → step t = exec i t
end

