-- ==== Sys2Proof/Laws/Encoding.lean ====
section
/-! SUPPORT. Every field the decoder reads, of a word of every format the encoder writes (30_encoding R93 to R101), the
inverse of the dispatch table, and that the reconstructed immediates have the low bits R97 to R99 give them. -/

namespace Sys2Proof

theorem evenImm_bit0 {n : Nat} {imm : BitVec n} (h : evenImm imm = true) : imm.getLsbD 0 = false := by
  simpa [evenImm] using h

theorem upperImm_bits {imm : BitVec 32} (h : upperImm imm = true) (k : Nat) (hk : k < 12) : imm[k] = false := by
  rw [← BitVec.getLsbD_eq_getElem]
  simpa [hk] using congrArg (·.getLsbD k) (beq_iff_eq.mp h)

/-! ### R format -/

theorem opcodeOf_encodeR (op : BitVec 7) (f3 : BitVec 3) (f7 : BitVec 7) (rd rs1 rs2 : RegIdx) :
    opcodeOf (encodeR op f3 f7 rd rs1 rs2) = op := by
  apply BitVec.eq_of_getLsbD_eq
  intro i hi
  simp only [opcodeOf, extractBitfield, encodeR, BitVec.extractLsb, BitVec.getLsbD_append,
    BitVec.getLsbD_extractLsb']
  interval_cases i <;> simp

theorem rdOf_encodeR (op : BitVec 7) (f3 : BitVec 3) (f7 : BitVec 7) (rd rs1 rs2 : RegIdx) :
    rdOf (encodeR op f3 f7 rd rs1 rs2) = rd := by
  apply BitVec.eq_of_getLsbD_eq
  intro i hi
  simp only [rdOf, extractBitfield, encodeR, BitVec.extractLsb, BitVec.getLsbD_append,
    BitVec.getLsbD_extractLsb']
  interval_cases i <;> simp

theorem funct3Of_encodeR (op : BitVec 7) (f3 : BitVec 3) (f7 : BitVec 7) (rd rs1 rs2 : RegIdx) :
    funct3Of (encodeR op f3 f7 rd rs1 rs2) = f3 := by
  apply BitVec.eq_of_getLsbD_eq
  intro i hi
  simp only [funct3Of, extractBitfield, encodeR, BitVec.extractLsb, BitVec.getLsbD_append,
    BitVec.getLsbD_extractLsb']
  interval_cases i <;> simp

theorem rs1Of_encodeR (op : BitVec 7) (f3 : BitVec 3) (f7 : BitVec 7) (rd rs1 rs2 : RegIdx) :
    rs1Of (encodeR op f3 f7 rd rs1 rs2) = rs1 := by
  apply BitVec.eq_of_getLsbD_eq
  intro i hi
  simp only [rs1Of, extractBitfield, encodeR, BitVec.extractLsb, BitVec.getLsbD_append,
    BitVec.getLsbD_extractLsb']
  interval_cases i <;> simp

theorem rs2Of_encodeR (op : BitVec 7) (f3 : BitVec 3) (f7 : BitVec 7) (rd rs1 rs2 : RegIdx) :
    rs2Of (encodeR op f3 f7 rd rs1 rs2) = rs2 := by
  apply BitVec.eq_of_getLsbD_eq
  intro i hi
  simp only [rs2Of, extractBitfield, encodeR, BitVec.extractLsb, BitVec.getLsbD_append,
    BitVec.getLsbD_extractLsb']
  interval_cases i <;> simp

theorem funct7Of_encodeR (op : BitVec 7) (f3 : BitVec 3) (f7 : BitVec 7) (rd rs1 rs2 : RegIdx) :
    funct7Of (encodeR op f3 f7 rd rs1 rs2) = f7 := by
  apply BitVec.eq_of_getLsbD_eq
  intro i hi
  simp only [funct7Of, extractBitfield, encodeR, BitVec.extractLsb, BitVec.getLsbD_append,
    BitVec.getLsbD_extractLsb']
  interval_cases i <;> simp

/-! ### I format -/

theorem opcodeOf_encodeI (op : BitVec 7) (f3 : BitVec 3) (rd rs1 : RegIdx) (imm : BitVec 12) :
    opcodeOf (encodeI op f3 rd rs1 imm) = op := by
  apply BitVec.eq_of_getLsbD_eq
  intro i hi
  simp only [opcodeOf, extractBitfield, encodeI, BitVec.extractLsb, BitVec.getLsbD_append,
    BitVec.getLsbD_extractLsb']
  interval_cases i <;> simp

theorem rdOf_encodeI (op : BitVec 7) (f3 : BitVec 3) (rd rs1 : RegIdx) (imm : BitVec 12) :
    rdOf (encodeI op f3 rd rs1 imm) = rd := by
  apply BitVec.eq_of_getLsbD_eq
  intro i hi
  simp only [rdOf, extractBitfield, encodeI, BitVec.extractLsb, BitVec.getLsbD_append,
    BitVec.getLsbD_extractLsb']
  interval_cases i <;> simp

theorem funct3Of_encodeI (op : BitVec 7) (f3 : BitVec 3) (rd rs1 : RegIdx) (imm : BitVec 12) :
    funct3Of (encodeI op f3 rd rs1 imm) = f3 := by
  apply BitVec.eq_of_getLsbD_eq
  intro i hi
  simp only [funct3Of, extractBitfield, encodeI, BitVec.extractLsb, BitVec.getLsbD_append,
    BitVec.getLsbD_extractLsb']
  interval_cases i <;> simp

theorem rs1Of_encodeI (op : BitVec 7) (f3 : BitVec 3) (rd rs1 : RegIdx) (imm : BitVec 12) :
    rs1Of (encodeI op f3 rd rs1 imm) = rs1 := by
  apply BitVec.eq_of_getLsbD_eq
  intro i hi
  simp only [rs1Of, extractBitfield, encodeI, BitVec.extractLsb, BitVec.getLsbD_append,
    BitVec.getLsbD_extractLsb']
  interval_cases i <;> simp

theorem immIOf_encodeI (op : BitVec 7) (f3 : BitVec 3) (rd rs1 : RegIdx) (imm : BitVec 12) :
    immIOf (encodeI op f3 rd rs1 imm) = imm := by
  apply BitVec.eq_of_getLsbD_eq
  intro i hi
  simp only [immIOf, extractBitfield, encodeI, BitVec.extractLsb, BitVec.getLsbD_append,
    BitVec.getLsbD_extractLsb']
  interval_cases i <;> simp

/-! ### Shift format -/

theorem opcodeOf_encodeShift (f3 : BitVec 3) (hi7 : BitVec 7) (rd rs1 : RegIdx) (shamt : BitVec 5) :
    opcodeOf (encodeShift f3 hi7 rd rs1 shamt) = 0b0010011#7 := by
  apply BitVec.eq_of_getLsbD_eq
  intro i hi
  simp only [opcodeOf, extractBitfield, encodeShift, BitVec.extractLsb, BitVec.getLsbD_append,
    BitVec.getLsbD_extractLsb']
  interval_cases i <;> simp

theorem rdOf_encodeShift (f3 : BitVec 3) (hi7 : BitVec 7) (rd rs1 : RegIdx) (shamt : BitVec 5) :
    rdOf (encodeShift f3 hi7 rd rs1 shamt) = rd := by
  apply BitVec.eq_of_getLsbD_eq
  intro i hi
  simp only [rdOf, extractBitfield, encodeShift, BitVec.extractLsb, BitVec.getLsbD_append,
    BitVec.getLsbD_extractLsb']
  interval_cases i <;> simp

theorem funct3Of_encodeShift (f3 : BitVec 3) (hi7 : BitVec 7) (rd rs1 : RegIdx) (shamt : BitVec 5) :
    funct3Of (encodeShift f3 hi7 rd rs1 shamt) = f3 := by
  apply BitVec.eq_of_getLsbD_eq
  intro i hi
  simp only [funct3Of, extractBitfield, encodeShift, BitVec.extractLsb, BitVec.getLsbD_append,
    BitVec.getLsbD_extractLsb']
  interval_cases i <;> simp

theorem rs1Of_encodeShift (f3 : BitVec 3) (hi7 : BitVec 7) (rd rs1 : RegIdx) (shamt : BitVec 5) :
    rs1Of (encodeShift f3 hi7 rd rs1 shamt) = rs1 := by
  apply BitVec.eq_of_getLsbD_eq
  intro i hi
  simp only [rs1Of, extractBitfield, encodeShift, BitVec.extractLsb, BitVec.getLsbD_append,
    BitVec.getLsbD_extractLsb']
  interval_cases i <;> simp

theorem shamtOf_encodeShift (f3 : BitVec 3) (hi7 : BitVec 7) (rd rs1 : RegIdx) (shamt : BitVec 5) :
    shamtOf (encodeShift f3 hi7 rd rs1 shamt) = shamt := by
  apply BitVec.eq_of_getLsbD_eq
  intro i hi
  simp only [shamtOf, extractBitfield, encodeShift, BitVec.extractLsb, BitVec.getLsbD_append,
    BitVec.getLsbD_extractLsb']
  interval_cases i <;> simp

theorem funct7Of_encodeShift (f3 : BitVec 3) (hi7 : BitVec 7) (rd rs1 : RegIdx) (shamt : BitVec 5) :
    funct7Of (encodeShift f3 hi7 rd rs1 shamt) = hi7 := by
  apply BitVec.eq_of_getLsbD_eq
  intro i hi
  simp only [funct7Of, extractBitfield, encodeShift, BitVec.extractLsb, BitVec.getLsbD_append,
    BitVec.getLsbD_extractLsb']
  interval_cases i <;> simp

/-! ### S format -/

theorem opcodeOf_encodeS (op : BitVec 7) (f3 : BitVec 3) (rs1 rs2 : RegIdx) (imm : BitVec 12) :
    opcodeOf (encodeS op f3 rs1 rs2 imm) = op := by
  apply BitVec.eq_of_getLsbD_eq
  intro i hi
  simp only [opcodeOf, extractBitfield, encodeS, BitVec.extractLsb, BitVec.getLsbD_append,
    BitVec.getLsbD_extractLsb']
  interval_cases i <;> simp

theorem funct3Of_encodeS (op : BitVec 7) (f3 : BitVec 3) (rs1 rs2 : RegIdx) (imm : BitVec 12) :
    funct3Of (encodeS op f3 rs1 rs2 imm) = f3 := by
  apply BitVec.eq_of_getLsbD_eq
  intro i hi
  simp only [funct3Of, extractBitfield, encodeS, BitVec.extractLsb, BitVec.getLsbD_append,
    BitVec.getLsbD_extractLsb']
  interval_cases i <;> simp

theorem rs1Of_encodeS (op : BitVec 7) (f3 : BitVec 3) (rs1 rs2 : RegIdx) (imm : BitVec 12) :
    rs1Of (encodeS op f3 rs1 rs2 imm) = rs1 := by
  apply BitVec.eq_of_getLsbD_eq
  intro i hi
  simp only [rs1Of, extractBitfield, encodeS, BitVec.extractLsb, BitVec.getLsbD_append,
    BitVec.getLsbD_extractLsb']
  interval_cases i <;> simp

theorem rs2Of_encodeS (op : BitVec 7) (f3 : BitVec 3) (rs1 rs2 : RegIdx) (imm : BitVec 12) :
    rs2Of (encodeS op f3 rs1 rs2 imm) = rs2 := by
  apply BitVec.eq_of_getLsbD_eq
  intro i hi
  simp only [rs2Of, extractBitfield, encodeS, BitVec.extractLsb, BitVec.getLsbD_append,
    BitVec.getLsbD_extractLsb']
  interval_cases i <;> simp

theorem immSOf_encodeS (op : BitVec 7) (f3 : BitVec 3) (rs1 rs2 : RegIdx) (imm : BitVec 12) :
    immSOf (encodeS op f3 rs1 rs2 imm) = imm := by
  apply BitVec.eq_of_getLsbD_eq
  intro i hi
  simp only [immSOf, extractBitfield, encodeS, BitVec.extractLsb, BitVec.getLsbD_append,
    BitVec.getLsbD_extractLsb']
  interval_cases i <;> simp

/-! ### B format -/

theorem opcodeOf_encodeB (op : BitVec 7) (f3 : BitVec 3) (rs1 rs2 : RegIdx) (imm : BitVec 13) :
    opcodeOf (encodeB op f3 rs1 rs2 imm) = op := by
  apply BitVec.eq_of_getLsbD_eq
  intro i hi
  simp only [opcodeOf, extractBitfield, encodeB, BitVec.extractLsb, BitVec.getLsbD_append,
    BitVec.getLsbD_extractLsb']
  interval_cases i <;> simp

theorem funct3Of_encodeB (op : BitVec 7) (f3 : BitVec 3) (rs1 rs2 : RegIdx) (imm : BitVec 13) :
    funct3Of (encodeB op f3 rs1 rs2 imm) = f3 := by
  apply BitVec.eq_of_getLsbD_eq
  intro i hi
  simp only [funct3Of, extractBitfield, encodeB, BitVec.extractLsb, BitVec.getLsbD_append,
    BitVec.getLsbD_extractLsb']
  interval_cases i <;> simp

theorem rs1Of_encodeB (op : BitVec 7) (f3 : BitVec 3) (rs1 rs2 : RegIdx) (imm : BitVec 13) :
    rs1Of (encodeB op f3 rs1 rs2 imm) = rs1 := by
  apply BitVec.eq_of_getLsbD_eq
  intro i hi
  simp only [rs1Of, extractBitfield, encodeB, BitVec.extractLsb, BitVec.getLsbD_append,
    BitVec.getLsbD_extractLsb']
  interval_cases i <;> simp

theorem rs2Of_encodeB (op : BitVec 7) (f3 : BitVec 3) (rs1 rs2 : RegIdx) (imm : BitVec 13) :
    rs2Of (encodeB op f3 rs1 rs2 imm) = rs2 := by
  apply BitVec.eq_of_getLsbD_eq
  intro i hi
  simp only [rs2Of, extractBitfield, encodeB, BitVec.extractLsb, BitVec.getLsbD_append,
    BitVec.getLsbD_extractLsb']
  interval_cases i <;> simp

theorem immBOf_encodeB (op : BitVec 7) (f3 : BitVec 3) (rs1 rs2 : RegIdx) (imm : BitVec 13) (h : evenImm imm = true) :
    immBOf (encodeB op f3 rs1 rs2 imm) = imm := by
  have h0 : imm[0] = false := by simpa using evenImm_bit0 h
  apply BitVec.eq_of_getLsbD_eq
  intro i hi
  simp only [immBOf, extractBitfield, encodeB, BitVec.extractLsb, BitVec.getLsbD_append,
    BitVec.getLsbD_extractLsb']
  interval_cases i <;> simp [h0]

/-! ### U format -/

theorem opcodeOf_encodeU (op : BitVec 7) (rd : RegIdx) (imm : BitVec 32) :
    opcodeOf (encodeU op rd imm) = op := by
  apply BitVec.eq_of_getLsbD_eq
  intro i hi
  simp only [opcodeOf, extractBitfield, encodeU, BitVec.extractLsb, BitVec.getLsbD_append,
    BitVec.getLsbD_extractLsb']
  interval_cases i <;> simp

theorem rdOf_encodeU (op : BitVec 7) (rd : RegIdx) (imm : BitVec 32) :
    rdOf (encodeU op rd imm) = rd := by
  apply BitVec.eq_of_getLsbD_eq
  intro i hi
  simp only [rdOf, extractBitfield, encodeU, BitVec.extractLsb, BitVec.getLsbD_append,
    BitVec.getLsbD_extractLsb']
  interval_cases i <;> simp

theorem immUOf_encodeU (op : BitVec 7) (rd : RegIdx) (imm : BitVec 32) (h : upperImm imm = true) :
    immUOf (encodeU op rd imm) = imm := by
  have h0 := upperImm_bits h
  apply BitVec.eq_of_getLsbD_eq
  intro i hi
  simp only [immUOf, extractBitfield, encodeU, BitVec.extractLsb, BitVec.getLsbD_append,
    BitVec.getLsbD_extractLsb']
  interval_cases i <;> simp [h0]

/-! ### J format -/

theorem opcodeOf_encodeJ (op : BitVec 7) (rd : RegIdx) (imm : BitVec 21) :
    opcodeOf (encodeJ op rd imm) = op := by
  apply BitVec.eq_of_getLsbD_eq
  intro i hi
  simp only [opcodeOf, extractBitfield, encodeJ, BitVec.extractLsb, BitVec.getLsbD_append,
    BitVec.getLsbD_extractLsb']
  interval_cases i <;> simp

theorem rdOf_encodeJ (op : BitVec 7) (rd : RegIdx) (imm : BitVec 21) :
    rdOf (encodeJ op rd imm) = rd := by
  apply BitVec.eq_of_getLsbD_eq
  intro i hi
  simp only [rdOf, extractBitfield, encodeJ, BitVec.extractLsb, BitVec.getLsbD_append,
    BitVec.getLsbD_extractLsb']
  interval_cases i <;> simp

theorem immJOf_encodeJ (op : BitVec 7) (rd : RegIdx) (imm : BitVec 21) (h : evenImm imm = true) :
    immJOf (encodeJ op rd imm) = imm := by
  have h0 : imm[0] = false := by simpa using evenImm_bit0 h
  apply BitVec.eq_of_getLsbD_eq
  intro i hi
  simp only [immJOf, extractBitfield, encodeJ, BitVec.extractLsb, BitVec.getLsbD_append,
    BitVec.getLsbD_extractLsb']
  interval_cases i <;> simp [h0]

/-! ### The reconstructed immediates -/

theorem immBOf_even (w : Word) : evenImm (immBOf w) = true := by
  simp only [evenImm, immBOf, BitVec.getLsbD_append]; simp

theorem immJOf_even (w : Word) : evenImm (immJOf w) = true := by
  simp only [evenImm, immJOf, BitVec.getLsbD_append]; simp

theorem immUOf_upper (w : Word) : upperImm (immUOf w) = true := by
  rw [upperImm, beq_iff_eq]
  apply BitVec.eq_of_getLsbD_eq
  intro i hi
  simp only [immUOf, BitVec.getLsbD_extractLsb', BitVec.getLsbD_append]
  interval_cases i <;> simp

/-! ### The dispatch table -/

/-- The opcode of a group (R102). -/
def OpcodeGroup.opcode : OpcodeGroup → BitVec 7
  | .load => 0b0000011#7
  | .fence => 0b0001111#7
  | .arithImm => 0b0010011#7
  | .auipc => 0b0010111#7
  | .store => 0b0100011#7
  | .arithReg => 0b0110011#7
  | .lui => 0b0110111#7
  | .branch => 0b1100011#7
  | .jalr => 0b1100111#7
  | .jal => 0b1101111#7
  | .ecall => 0b1110011#7

/-- Every group is found at its own opcode. -/
theorem groupOf_opcode (g : OpcodeGroup) : groupOf g.opcode = some g := by cases g <;> rfl

/-- The table has one group per opcode. -/
theorem groupOf_eq_some {op : BitVec 7} {g : OpcodeGroup} (h : groupOf op = some g) : op = g.opcode := by
  unfold groupOf at h
  split at h <;> first | (cases h; rfl) | cases h

/-- A word whose opcode is that of a group is decoded by that group's handler (R103). -/
theorem decode_of_group (w : Word) (g : OpcodeGroup) (h : opcodeOf w = g.opcode) : decode w = decodeGroup g w := by
  simp [decode, h, groupOf_opcode]

end Sys2Proof
end

