-- ==== Sys2Proof/Laws/Memory.lean ====
section
/-! SUPPORT. The laws of the byte store: a read after a write, the frame of a write, and that every operation keeps the
canonical form. -/

namespace Sys2Proof.Machine

/-! ### One cell -/

theorem Memory.read_nil (a : Nat) : Memory.read [] a = 0#8 := rfl

/-- In a canonical memory whose addresses start at `lo`, a cell below `lo` is unlisted. -/
theorem Memory.read_below {m : Memory} : ∀ {lo a : Nat}, Memory.wfFrom lo m = true → a < lo → m.read a = 0#8 := by
  induction m with
  | nil => intros; rfl
  | cons c m ih =>
    obtain ⟨k, b⟩ := c
    intro lo a h ha
    simp only [Memory.wfFrom, Bool.and_eq_true, decide_eq_true_eq] at h
    have hk : a ≠ k := by omega
    simp only [Memory.read, hk, if_false]
    exact ih h.2 (by omega)

/-- A write leaves every other cell as it was, in any memory. -/
theorem Memory.read_write_ne (m : Memory) (a a' : Nat) (v : Byte) (h : a' ≠ a) :
    (m.write a v).read a' = m.read a' := by
  induction m with
  | nil => by_cases hv : v = 0#8 <;> simp [Memory.write, Memory.read, hv, h]
  | cons c m ih =>
    obtain ⟨k, b⟩ := c
    unfold Memory.write
    split
    · split <;> simp [Memory.read, h]
    · split
      · rename_i hk
        have hk' : a' ≠ k := fun e => h (e.trans hk.symm)
        split <;> simp [Memory.read, h, hk']
      · simp [Memory.read, ih]

/-- A read of the cell just written gives the byte written, in a canonical memory. -/
theorem Memory.read_write_same {m : Memory} : ∀ {lo : Nat} (a : Nat) (v : Byte), Memory.wfFrom lo m = true →
    (m.write a v).read a = v := by
  induction m with
  | nil => intro _ a v _; by_cases hv : v = 0#8 <;> simp [Memory.write, Memory.read, hv]
  | cons c m ih =>
    obtain ⟨k, b⟩ := c
    intro lo a v h
    simp only [Memory.wfFrom, Bool.and_eq_true, decide_eq_true_eq] at h
    have hm := h.2
    unfold Memory.write
    split
    · rename_i hak
      split
      · rename_i hv
        have : a ≠ k := by omega
        simp [Memory.read, this, hv, Memory.read_below hm (by omega : a < k + 1)]
      · simp [Memory.read]
    · split
      · rename_i hk
        split
        · rename_i hv
          simp [hv, Memory.read_below hm (by omega : a < k + 1)]
        · simp [Memory.read]
      · rename_i hk
        simp [Memory.read, hk, ih a v hm]

/-- Lowering the bound keeps the canonical form. -/
theorem Memory.wfFrom_mono {m : Memory} {lo lo' : Nat} (h : Memory.wfFrom lo m = true) (hl : lo' ≤ lo) :
    Memory.wfFrom lo' m = true := by
  cases m with
  | nil => rfl
  | cons c m =>
    obtain ⟨k, b⟩ := c
    simp only [Memory.wfFrom, Bool.and_eq_true, decide_eq_true_eq] at h ⊢
    exact ⟨⟨⟨by omega, h.1.1.2⟩, h.1.2⟩, h.2⟩

theorem Memory.wfFrom_write {m : Memory} : ∀ {lo : Nat} (a : Nat) (v : Byte), Memory.wfFrom lo m = true → lo ≤ a →
    a < Config.cellCount → Memory.wfFrom lo (m.write a v) = true := by
  induction m with
  | nil => intro lo a v _ hl ha; by_cases hv : v = 0#8 <;> simp [Memory.write, Memory.wfFrom, hv, hl, ha]
  | cons c m ih =>
    obtain ⟨k, b⟩ := c
    intro lo a v h hl ha
    have h0 := h
    simp only [Memory.wfFrom, Bool.and_eq_true, decide_eq_true_eq] at h
    unfold Memory.write
    split
    · rename_i hak
      split
      · exact h0
      · rename_i hv
        simp only [Memory.wfFrom, Bool.and_eq_true, decide_eq_true_eq]
        exact ⟨⟨⟨hl, ha⟩, hv⟩, ⟨⟨by omega, h.1.1.2⟩, h.1.2⟩, h.2⟩
    · split
      · rename_i hk
        subst hk
        split
        · exact Memory.wfFrom_mono h.2 (by omega)
        · rename_i hv
          simp only [Memory.wfFrom, Bool.and_eq_true, decide_eq_true_eq]
          exact ⟨⟨⟨hl, ha⟩, hv⟩, h.2⟩
      · simp only [Memory.wfFrom, Bool.and_eq_true, decide_eq_true_eq]
        exact ⟨h.1, ih a v h.2 (by omega) ha⟩

/-- A write of a cell of the address space keeps the canonical form. -/
theorem Memory.wf_write {m : Memory} (a : Nat) (v : Byte) (h : m.wf = true) (ha : a < Config.cellCount) :
    (m.write a v).wf = true := Memory.wfFrom_write a v h (Nat.zero_le a) ha

/-! ### Values of 1, 2 and 4 bytes -/

theorem byteAddr_lt (a : Word) (i : Nat) : byteAddr a i < Config.cellCount := (a + BitVec.ofNat 32 i).isLt

/-- The address of byte `i` is `(a + i) mod 2^32` (20_memory R54). -/
theorem byteAddr_eq (a : Word) (i : Nat) : byteAddr a i = (a.toNat + i) % 2 ^ 32 := by
  simp [byteAddr, BitVec.toNat_add]

/-- The cells of one access are distinct. -/
theorem byteAddr_inj (a : Word) {i j : Nat} (hi : i < 4) (hj : j < 4) (h : byteAddr a i = byteAddr a j) : i = j := by
  rw [byteAddr_eq, byteAddr_eq] at h
  omega

theorem Memory.wf_writeBytes {m : Memory} (a v : Word) (h : m.wf = true) : ∀ k, (m.writeBytes a v k).wf = true
  | 0 => h
  | k + 1 => Memory.wf_write _ _ (Memory.wf_writeBytes a v h k) (byteAddr_lt a k)

/-- A write of any width keeps the canonical form. -/
theorem Memory.wf_writeValue {m : Memory} (a : Word) (n : AccessWidth) (v : Word) (h : m.wf = true) :
    (m.writeValue a n v).wf = true := Memory.wf_writeBytes a v h n.bytes

/-- Cells outside the bytes written are as before. -/
theorem Memory.read_writeBytes_ne (m : Memory) (a v : Word) (b : Nat) :
    ∀ k, (∀ i < k, b ≠ byteAddr a i) → (m.writeBytes a v k).read b = m.read b
  | 0, _ => rfl
  | k + 1, h => by
    rw [Memory.writeBytes, Memory.read_write_ne _ _ _ _ (h k (by omega))]
    exact Memory.read_writeBytes_ne m a v b k fun i hi => h i (by omega)

/-- The bytes written stand in their cells. -/
theorem Memory.read_writeBytes {m : Memory} (a v : Word) (h : m.wf = true) :
    ∀ k, k ≤ 4 → ∀ i < k, (m.writeBytes a v k).read (byteAddr a i) = byteOf v i
  | 0, _, _, hi => absurd hi (Nat.not_lt_zero _)
  | k + 1, hk, i, hi => by
    rw [Memory.writeBytes]
    by_cases he : i = k
    · subst he; exact Memory.read_write_same _ _ (Memory.wf_writeBytes a v h i)
    · rw [Memory.read_write_ne _ _ _ _ fun e => he (byteAddr_inj a (by omega) (by omega) e)]
      exact Memory.read_writeBytes a v h k (by omega) i (by omega)

theorem AccessWidth.bytes_le (n : AccessWidth) : n.bytes ≤ 4 := by cases n <;> decide

/-- `writeValue` outside its cells. -/
theorem Memory.read_writeValue_ne (m : Memory) (a : Word) (n : AccessWidth) (v : Word) (b : Nat)
    (h : ∀ i < n.bytes, b ≠ byteAddr a i) : (m.writeValue a n v).read b = m.read b :=
  Memory.read_writeBytes_ne m a v b n.bytes h

/-- `writeValue` on its cells. -/
theorem Memory.read_writeValue {m : Memory} (a : Word) (n : AccessWidth) (v : Word) (h : m.wf = true) (i : Nat)
    (hi : i < n.bytes) : (m.writeValue a n v).read (byteAddr a i) = byteOf v i :=
  Memory.read_writeBytes a v h n.bytes n.bytes_le i hi

/-- A word written is the word read. -/
theorem Memory.readValue_writeValue_word {m : Memory} (a v : Word) (h : m.wf = true) :
    (m.writeValue a .word v).readValue a .word = v := by
  have hb := Memory.read_writeValue a .word v h
  simp only [Memory.readValue, hb 0 (by decide), hb 1 (by decide), hb 2 (by decide), hb 3 (by decide)]
  apply BitVec.eq_of_toNat_eq
  simp only [byteOf, BitVec.toNat_append, BitVec.extractLsb'_toNat, ← Nat.shiftLeft_add_eq_or_of_lt (Nat.mod_lt _ (by decide : 0 < 2 ^ 8))]
  have := v.isLt
  simp only [Nat.shiftRight_eq_div_pow, Nat.shiftLeft_eq]
  omega

/-- Any value written, read back at the same width, is its low `8n` bits (20_memory R57). -/
theorem Memory.readValue_writeValue {m : Memory} (a : Word) (n : AccessWidth) (v : Word) (h : m.wf = true) :
    ((m.writeValue a n v).readValue a n).toNat = v.toNat % 256 ^ n.bytes := by
  have hb := Memory.read_writeValue a n v h
  have hv := v.isLt
  cases n with
  | byte => simp [Memory.readValue, hb 0 (by decide), byteOf, AccessWidth.bytes]; omega
  | half =>
    simp only [Memory.readValue, hb 0 (by decide), hb 1 (by decide), AccessWidth.bytes]
    simp only [byteOf, BitVec.toNat_setWidth, BitVec.toNat_append, BitVec.extractLsb'_toNat,
      ← Nat.shiftLeft_add_eq_or_of_lt (Nat.mod_lt _ (by decide : 0 < 2 ^ 8))]
    simp only [Nat.shiftRight_eq_div_pow, Nat.shiftLeft_eq]
    omega
  | word => rw [Memory.readValue_writeValue_word a v h]; simp [AccessWidth.bytes]; omega

/-! ### The image load -/

theorem Memory.wf_load {m : Memory} (h : m.wf = true) : ∀ (image : List Byte) (a : Nat), (m.load a image).wf = true := by
  intro image
  induction image generalizing m with
  | nil => intro a; exact h
  | cons b bs ih =>
    intro a
    unfold Memory.load
    split
    · rename_i ha; exact ih (Memory.wf_write a b h ha) (a + 1)
    · exact h

/-- A cell below the load address is not touched. -/
theorem Memory.read_load_below (image : List Byte) : ∀ (m : Memory) (a c : Nat), c < a → (m.load a image).read c = m.read c := by
  induction image with
  | nil => intros; rfl
  | cons b bs ih =>
    intro m a c hc
    unfold Memory.load
    split
    · rw [ih _ _ _ (by omega), Memory.read_write_ne _ _ _ _ (by omega)]
    · rfl

/-- Byte `i` of the image stands at cell `a + i`; cells beyond the image are as before (70 R310). -/
theorem Memory.read_load (image : List Byte) : ∀ (m : Memory) (a : Nat), m.wf = true → ∀ c, a ≤ c → c < Config.cellCount →
    (m.load a image).read c = (image[c - a]?).getD (m.read c) := by
  induction image with
  | nil => intros; simp [Memory.load]
  | cons b bs ih =>
    intro m a h c hc hlt
    have ha : a < Config.cellCount := by omega
    rw [Memory.load, if_pos ha]
    by_cases he : c = a
    · subst he
      rw [Memory.read_load_below _ _ _ _ (by omega), Memory.read_write_same _ _ h]
      simp
    · rw [ih _ _ (Memory.wf_write a b h ha) c (by omega) hlt, Memory.read_write_ne _ _ _ _ he]
      have : c - a = (c - (a + 1)) + 1 := by omega
      rw [this, List.getElem?_cons_succ]

end Sys2Proof.Machine
end

