-- ==== Sys2Proof/Laws/State.lean ====
section
/-! SUPPORT. One lemma per field per update of State, so that no later proof unfolds a record update. -/

namespace Sys2Proof.Machine

/-! ### setReg -/

@[simp] theorem State.setReg_pc (s : State) (r : RegIdx) (v : Word) : (s.setReg r v).pc = s.pc := rfl
@[simp] theorem State.setReg_spMax (s : State) (r : RegIdx) (v : Word) : (s.setReg r v).spMax = s.spMax := rfl
@[simp] theorem State.setReg_spMin (s : State) (r : RegIdx) (v : Word) : (s.setReg r v).spMin = s.spMin := rfl
@[simp] theorem State.setReg_mem (s : State) (r : RegIdx) (v : Word) : (s.setReg r v).mem = s.mem := rfl
@[simp] theorem State.setReg_cycles (s : State) (r : RegIdx) (v : Word) : (s.setReg r v).cycles = s.cycles := rfl
@[simp] theorem State.setReg_run (s : State) (r : RegIdx) (v : Word) : (s.setReg r v).run = s.run := rfl
@[simp] theorem State.setReg_fault (s : State) (r : RegIdx) (v : Word) : (s.setReg r v).fault = s.fault := rfl
@[simp] theorem State.setReg_out (s : State) (r : RegIdx) (v : Word) : (s.setReg r v).out = s.out := rfl
@[simp] theorem State.setReg_input (s : State) (r : RegIdx) (v : Word) : (s.setReg r v).input = s.input := rfl
@[simp] theorem State.setReg_inPos (s : State) (r : RegIdx) (v : Word) : (s.setReg r v).inPos = s.inPos := rfl
@[simp] theorem State.setReg_alignEnforce (s : State) (r : RegIdx) (v : Word) : (s.setReg r v).alignEnforce = s.alignEnforce := rfl

/-! ### noteSp -/

@[simp] theorem State.noteSp_regs (s : State) (v : Word) : (s.noteSp v).regs = s.regs := rfl
@[simp] theorem State.noteSp_pc (s : State) (v : Word) : (s.noteSp v).pc = s.pc := rfl
@[simp] theorem State.noteSp_mem (s : State) (v : Word) : (s.noteSp v).mem = s.mem := rfl
@[simp] theorem State.noteSp_cycles (s : State) (v : Word) : (s.noteSp v).cycles = s.cycles := rfl
@[simp] theorem State.noteSp_run (s : State) (v : Word) : (s.noteSp v).run = s.run := rfl
@[simp] theorem State.noteSp_fault (s : State) (v : Word) : (s.noteSp v).fault = s.fault := rfl
@[simp] theorem State.noteSp_out (s : State) (v : Word) : (s.noteSp v).out = s.out := rfl
@[simp] theorem State.noteSp_input (s : State) (v : Word) : (s.noteSp v).input = s.input := rfl
@[simp] theorem State.noteSp_inPos (s : State) (v : Word) : (s.noteSp v).inPos = s.inPos := rfl
@[simp] theorem State.noteSp_alignEnforce (s : State) (v : Word) : (s.noteSp v).alignEnforce = s.alignEnforce := rfl

@[simp] theorem State.noteSp_spMax (s : State) (v : Word) : (s.noteSp v).spMax = raiseMax s.spMax v := rfl
@[simp] theorem State.noteSp_spMin (s : State) (v : Word) : (s.noteSp v).spMin = lowerMin s.spMin v := rfl

/-! ### writeReg -/

@[simp] theorem State.writeReg_zero (s : State) (v : Word) : s.writeReg 0#5 v = s := rfl

theorem State.writeReg_two (s : State) (v : Word) : s.writeReg 2#5 v = (s.setReg 2#5 v).noteSp v := rfl

theorem State.writeReg_other (s : State) (r : RegIdx) (v : Word) (h0 : r ≠ 0#5) (h2 : r ≠ 2#5) :
    s.writeReg r v = s.setReg r v := by simp [State.writeReg, h0, h2]

@[simp] theorem State.writeReg_pc (s : State) (r : RegIdx) (v : Word) : (s.writeReg r v).pc = s.pc := by
  unfold State.writeReg; split <;> [rfl; (split <;> rfl)]
@[simp] theorem State.writeReg_mem (s : State) (r : RegIdx) (v : Word) : (s.writeReg r v).mem = s.mem := by
  unfold State.writeReg; split <;> [rfl; (split <;> rfl)]
@[simp] theorem State.writeReg_cycles (s : State) (r : RegIdx) (v : Word) : (s.writeReg r v).cycles = s.cycles := by
  unfold State.writeReg; split <;> [rfl; (split <;> rfl)]
@[simp] theorem State.writeReg_run (s : State) (r : RegIdx) (v : Word) : (s.writeReg r v).run = s.run := by
  unfold State.writeReg; split <;> [rfl; (split <;> rfl)]
@[simp] theorem State.writeReg_fault (s : State) (r : RegIdx) (v : Word) : (s.writeReg r v).fault = s.fault := by
  unfold State.writeReg; split <;> [rfl; (split <;> rfl)]
@[simp] theorem State.writeReg_out (s : State) (r : RegIdx) (v : Word) : (s.writeReg r v).out = s.out := by
  unfold State.writeReg; split <;> [rfl; (split <;> rfl)]
@[simp] theorem State.writeReg_input (s : State) (r : RegIdx) (v : Word) : (s.writeReg r v).input = s.input := by
  unfold State.writeReg; split <;> [rfl; (split <;> rfl)]
@[simp] theorem State.writeReg_inPos (s : State) (r : RegIdx) (v : Word) : (s.writeReg r v).inPos = s.inPos := by
  unfold State.writeReg; split <;> [rfl; (split <;> rfl)]
@[simp] theorem State.writeReg_alignEnforce (s : State) (r : RegIdx) (v : Word) : (s.writeReg r v).alignEnforce = s.alignEnforce := by
  unfold State.writeReg; split <;> [rfl; (split <;> rfl)]

theorem State.writeReg_spMax (s : State) (r : RegIdx) (v : Word) :
    (s.writeReg r v).spMax = if r = 2#5 then raiseMax s.spMax v else s.spMax := by
  unfold State.writeReg
  by_cases h0 : r = 0#5
  · subst h0; rfl
  · by_cases h2 : r = 2#5 <;> simp [h0, h2]

theorem State.writeReg_spMin (s : State) (r : RegIdx) (v : Word) :
    (s.writeReg r v).spMin = if r = 2#5 then lowerMin s.spMin v else s.spMin := by
  unfold State.writeReg
  by_cases h0 : r = 0#5
  · subst h0; rfl
  · by_cases h2 : r = 2#5 <;> simp [h0, h2]

/-! ### raise -/

@[simp] theorem State.raise_regs (s : State) (f : Fault) : (s.raise f).regs = s.regs := rfl
@[simp] theorem State.raise_pc (s : State) (f : Fault) : (s.raise f).pc = s.pc := rfl
@[simp] theorem State.raise_spMax (s : State) (f : Fault) : (s.raise f).spMax = s.spMax := rfl
@[simp] theorem State.raise_spMin (s : State) (f : Fault) : (s.raise f).spMin = s.spMin := rfl
@[simp] theorem State.raise_mem (s : State) (f : Fault) : (s.raise f).mem = s.mem := rfl
@[simp] theorem State.raise_cycles (s : State) (f : Fault) : (s.raise f).cycles = s.cycles := rfl
@[simp] theorem State.raise_run (s : State) (f : Fault) : (s.raise f).run = s.run := rfl
@[simp] theorem State.raise_out (s : State) (f : Fault) : (s.raise f).out = s.out := rfl
@[simp] theorem State.raise_input (s : State) (f : Fault) : (s.raise f).input = s.input := rfl
@[simp] theorem State.raise_inPos (s : State) (f : Fault) : (s.raise f).inPos = s.inPos := rfl
@[simp] theorem State.raise_alignEnforce (s : State) (f : Fault) : (s.raise f).alignEnforce = s.alignEnforce := rfl

@[simp] theorem State.raise_fault (s : State) (f : Fault) : (s.raise f).fault = some f := rfl

/-! ### portWrite -/

@[simp] theorem State.portWrite_regs (s : State) (v : Word) : (s.portWrite v).regs = s.regs := rfl
@[simp] theorem State.portWrite_pc (s : State) (v : Word) : (s.portWrite v).pc = s.pc := rfl
@[simp] theorem State.portWrite_spMax (s : State) (v : Word) : (s.portWrite v).spMax = s.spMax := rfl
@[simp] theorem State.portWrite_spMin (s : State) (v : Word) : (s.portWrite v).spMin = s.spMin := rfl
@[simp] theorem State.portWrite_mem (s : State) (v : Word) : (s.portWrite v).mem = s.mem := rfl
@[simp] theorem State.portWrite_cycles (s : State) (v : Word) : (s.portWrite v).cycles = s.cycles := rfl
@[simp] theorem State.portWrite_run (s : State) (v : Word) : (s.portWrite v).run = s.run := rfl
@[simp] theorem State.portWrite_fault (s : State) (v : Word) : (s.portWrite v).fault = s.fault := rfl
@[simp] theorem State.portWrite_input (s : State) (v : Word) : (s.portWrite v).input = s.input := rfl
@[simp] theorem State.portWrite_inPos (s : State) (v : Word) : (s.portWrite v).inPos = s.inPos := rfl
@[simp] theorem State.portWrite_alignEnforce (s : State) (v : Word) : (s.portWrite v).alignEnforce = s.alignEnforce := rfl

@[simp] theorem State.portWrite_out (s : State) (v : Word) : (s.portWrite v).out = s.out ++ [byteOf v 0] := rfl

/-! ### placeWord -/

@[simp] theorem State.placeWord_regs (s : State) (w : Word) : (s.placeWord w).regs = s.regs := rfl
@[simp] theorem State.placeWord_pc (s : State) (w : Word) : (s.placeWord w).pc = s.pc := rfl
@[simp] theorem State.placeWord_spMax (s : State) (w : Word) : (s.placeWord w).spMax = s.spMax := rfl
@[simp] theorem State.placeWord_spMin (s : State) (w : Word) : (s.placeWord w).spMin = s.spMin := rfl
@[simp] theorem State.placeWord_cycles (s : State) (w : Word) : (s.placeWord w).cycles = s.cycles := rfl
@[simp] theorem State.placeWord_run (s : State) (w : Word) : (s.placeWord w).run = s.run := rfl
@[simp] theorem State.placeWord_fault (s : State) (w : Word) : (s.placeWord w).fault = s.fault := rfl
@[simp] theorem State.placeWord_out (s : State) (w : Word) : (s.placeWord w).out = s.out := rfl
@[simp] theorem State.placeWord_input (s : State) (w : Word) : (s.placeWord w).input = s.input := rfl
@[simp] theorem State.placeWord_inPos (s : State) (w : Word) : (s.placeWord w).inPos = s.inPos := rfl
@[simp] theorem State.placeWord_alignEnforce (s : State) (w : Word) : (s.placeWord w).alignEnforce = s.alignEnforce := rfl

@[simp] theorem State.placeWord_mem (s : State) (w : Word) : (s.placeWord w).mem = s.mem.writeValue s.pc .word w := rfl

/-! ### supply -/

@[simp] theorem State.supply_regs (s : State) (cs : List Byte) : (s.supply cs).regs = s.regs := rfl
@[simp] theorem State.supply_pc (s : State) (cs : List Byte) : (s.supply cs).pc = s.pc := rfl
@[simp] theorem State.supply_spMax (s : State) (cs : List Byte) : (s.supply cs).spMax = s.spMax := rfl
@[simp] theorem State.supply_spMin (s : State) (cs : List Byte) : (s.supply cs).spMin = s.spMin := rfl
@[simp] theorem State.supply_mem (s : State) (cs : List Byte) : (s.supply cs).mem = s.mem := rfl
@[simp] theorem State.supply_cycles (s : State) (cs : List Byte) : (s.supply cs).cycles = s.cycles := rfl
@[simp] theorem State.supply_run (s : State) (cs : List Byte) : (s.supply cs).run = s.run := rfl
@[simp] theorem State.supply_fault (s : State) (cs : List Byte) : (s.supply cs).fault = s.fault := rfl
@[simp] theorem State.supply_out (s : State) (cs : List Byte) : (s.supply cs).out = s.out := rfl
@[simp] theorem State.supply_inPos (s : State) (cs : List Byte) : (s.supply cs).inPos = s.inPos := rfl
@[simp] theorem State.supply_alignEnforce (s : State) (cs : List Byte) : (s.supply cs).alignEnforce = s.alignEnforce := rfl

@[simp] theorem State.supply_input (s : State) (cs : List Byte) : (s.supply cs).input = s.input ++ cs := rfl

/-! ### retire -/

@[simp] theorem State.retire_regs (s : State) (a : Answer) : (s.retire a).regs = s.regs := by cases a <;> rfl
@[simp] theorem State.retire_spMax (s : State) (a : Answer) : (s.retire a).spMax = s.spMax := by cases a <;> rfl
@[simp] theorem State.retire_spMin (s : State) (a : Answer) : (s.retire a).spMin = s.spMin := by cases a <;> rfl
@[simp] theorem State.retire_mem (s : State) (a : Answer) : (s.retire a).mem = s.mem := by cases a <;> rfl
@[simp] theorem State.retire_fault (s : State) (a : Answer) : (s.retire a).fault = s.fault := by cases a <;> rfl
@[simp] theorem State.retire_out (s : State) (a : Answer) : (s.retire a).out = s.out := by cases a <;> rfl
@[simp] theorem State.retire_input (s : State) (a : Answer) : (s.retire a).input = s.input := by cases a <;> rfl
@[simp] theorem State.retire_inPos (s : State) (a : Answer) : (s.retire a).inPos = s.inPos := by cases a <;> rfl
@[simp] theorem State.retire_alignEnforce (s : State) (a : Answer) : (s.retire a).alignEnforce = s.alignEnforce := by cases a <;> rfl

@[simp] theorem State.retire_cycles (s : State) (a : Answer) : (s.retire a).cycles = s.cycles + 1 := by cases a <;> rfl
@[simp] theorem State.retire_fallThrough_pc (s : State) : (s.retire .fallThrough).pc = s.pc + 4#32 := rfl
@[simp] theorem State.retire_newPc_pc (s : State) (t : Word) : (s.retire (.newPc t)).pc = t := rfl
@[simp] theorem State.retire_halt_pc (s : State) : (s.retire .halt).pc = s.pc + 4#32 := rfl
@[simp] theorem State.retire_fallThrough_run (s : State) : (s.retire .fallThrough).run = s.run := rfl
@[simp] theorem State.retire_newPc_run (s : State) (t : Word) : (s.retire (.newPc t)).run = s.run := rfl
@[simp] theorem State.retire_halt_run (s : State) : (s.retire .halt).run = .halted := rfl

/-! ### finish and jumpAndLink -/

@[simp] theorem State.finish_mem (s : State) (r : RegIdx) (v : Word) : (s.finish r v).mem = s.mem := by simp [State.finish]
@[simp] theorem State.finish_run (s : State) (r : RegIdx) (v : Word) : (s.finish r v).run = s.run := by simp [State.finish]
@[simp] theorem State.finish_fault (s : State) (r : RegIdx) (v : Word) : (s.finish r v).fault = s.fault := by simp [State.finish]
@[simp] theorem State.finish_out (s : State) (r : RegIdx) (v : Word) : (s.finish r v).out = s.out := by simp [State.finish]
@[simp] theorem State.finish_input (s : State) (r : RegIdx) (v : Word) : (s.finish r v).input = s.input := by simp [State.finish]
@[simp] theorem State.finish_inPos (s : State) (r : RegIdx) (v : Word) : (s.finish r v).inPos = s.inPos := by simp [State.finish]
@[simp] theorem State.finish_alignEnforce (s : State) (r : RegIdx) (v : Word) : (s.finish r v).alignEnforce = s.alignEnforce := by simp [State.finish]

@[simp] theorem State.finish_pc (s : State) (r : RegIdx) (v : Word) : (s.finish r v).pc = s.pc + 4#32 := by
  simp [State.finish]
@[simp] theorem State.finish_cycles (s : State) (r : RegIdx) (v : Word) : (s.finish r v).cycles = s.cycles + 1 := by
  simp [State.finish]
@[simp] theorem State.finish_spMax (s : State) (r : RegIdx) (v : Word) :
    (s.finish r v).spMax = (s.writeReg r v).spMax := by simp [State.finish]
@[simp] theorem State.finish_spMin (s : State) (r : RegIdx) (v : Word) :
    (s.finish r v).spMin = (s.writeReg r v).spMin := by simp [State.finish]

@[simp] theorem State.jumpAndLink_mem (s : State) (r : RegIdx) (t : Word) : (s.jumpAndLink r t).mem = s.mem := by
  simp [State.jumpAndLink]
@[simp] theorem State.jumpAndLink_run (s : State) (r : RegIdx) (t : Word) : (s.jumpAndLink r t).run = s.run := by
  simp [State.jumpAndLink]
@[simp] theorem State.jumpAndLink_fault (s : State) (r : RegIdx) (t : Word) : (s.jumpAndLink r t).fault = s.fault := by
  simp [State.jumpAndLink]
@[simp] theorem State.jumpAndLink_out (s : State) (r : RegIdx) (t : Word) : (s.jumpAndLink r t).out = s.out := by
  simp [State.jumpAndLink]
@[simp] theorem State.jumpAndLink_input (s : State) (r : RegIdx) (t : Word) : (s.jumpAndLink r t).input = s.input := by
  simp [State.jumpAndLink]
@[simp] theorem State.jumpAndLink_inPos (s : State) (r : RegIdx) (t : Word) : (s.jumpAndLink r t).inPos = s.inPos := by
  simp [State.jumpAndLink]
@[simp] theorem State.jumpAndLink_alignEnforce (s : State) (r : RegIdx) (t : Word) : (s.jumpAndLink r t).alignEnforce = s.alignEnforce := by
  simp [State.jumpAndLink]

@[simp] theorem State.jumpAndLink_pc (s : State) (r : RegIdx) (t : Word) : (s.jumpAndLink r t).pc = t := by
  simp [State.jumpAndLink]
@[simp] theorem State.jumpAndLink_cycles (s : State) (r : RegIdx) (t : Word) :
    (s.jumpAndLink r t).cycles = s.cycles + 1 := by simp [State.jumpAndLink]
@[simp] theorem State.jumpAndLink_spMax (s : State) (r : RegIdx) (t : Word) :
    (s.jumpAndLink r t).spMax = (s.writeReg r s.nextPc).spMax := by simp [State.jumpAndLink]
@[simp] theorem State.jumpAndLink_spMin (s : State) (r : RegIdx) (t : Word) :
    (s.jumpAndLink r t).spMin = (s.writeReg r s.nextPc).spMin := by simp [State.jumpAndLink]

/-! ### branch -/

@[simp] theorem State.branch_regs (s : State) (c : Bool) (imm : BitVec 13) : (s.branch c imm).regs = s.regs := by
  simp [State.branch]
@[simp] theorem State.branch_spMax (s : State) (c : Bool) (imm : BitVec 13) : (s.branch c imm).spMax = s.spMax := by
  simp [State.branch]
@[simp] theorem State.branch_spMin (s : State) (c : Bool) (imm : BitVec 13) : (s.branch c imm).spMin = s.spMin := by
  simp [State.branch]
@[simp] theorem State.branch_mem (s : State) (c : Bool) (imm : BitVec 13) : (s.branch c imm).mem = s.mem := by
  simp [State.branch]
@[simp] theorem State.branch_fault (s : State) (c : Bool) (imm : BitVec 13) : (s.branch c imm).fault = s.fault := by
  simp [State.branch]
@[simp] theorem State.branch_out (s : State) (c : Bool) (imm : BitVec 13) : (s.branch c imm).out = s.out := by
  simp [State.branch]
@[simp] theorem State.branch_input (s : State) (c : Bool) (imm : BitVec 13) : (s.branch c imm).input = s.input := by
  simp [State.branch]
@[simp] theorem State.branch_inPos (s : State) (c : Bool) (imm : BitVec 13) : (s.branch c imm).inPos = s.inPos := by
  simp [State.branch]
@[simp] theorem State.branch_alignEnforce (s : State) (c : Bool) (imm : BitVec 13) : (s.branch c imm).alignEnforce = s.alignEnforce := by
  simp [State.branch]

@[simp] theorem State.branch_cycles (s : State) (c : Bool) (imm : BitVec 13) :
    (s.branch c imm).cycles = s.cycles + 1 := by simp [State.branch]
@[simp] theorem State.branch_run (s : State) (c : Bool) (imm : BitVec 13) : (s.branch c imm).run = s.run := by
  cases c <;> rfl
theorem State.branch_pc (s : State) (c : Bool) (imm : BitVec 13) :
    (s.branch c imm).pc = if c then s.relativeTarget imm else s.pc + 4#32 := by cases c <;> rfl

/-! ### reading a register through an update -/

@[simp] theorem State.readReg_zero (s : State) : s.readReg 0#5 = 0#32 := rfl

/-- A register read depends on the register file alone. -/
theorem State.readReg_congr {s t : State} (h : t.regs = s.regs) (r : RegIdx) : t.readReg r = s.readReg r := by
  simp [State.readReg, h]

theorem State.readReg_setReg (s : State) (r q : RegIdx) (v : Word) :
    (s.setReg r v).readReg q = if q = r ∧ q ≠ 0#5 then v else s.readReg q := by
  unfold State.readReg State.setReg
  by_cases h0 : q = 0#5
  · simp [h0]
  · by_cases hq : q = r
    · subst hq; simp [h0]
    · have : r.toNat ≠ q.toNat := fun h => hq (BitVec.eq_of_toNat_eq h.symm)
      simp [h0, hq, Vector.getElem_set_ne, this]

@[simp] theorem State.readReg_noteSp (s : State) (v : Word) (q : RegIdx) : (s.noteSp v).readReg q = s.readReg q :=
  State.readReg_congr (by simp) q
@[simp] theorem State.readReg_raise (s : State) (f : Fault) (q : RegIdx) : (s.raise f).readReg q = s.readReg q :=
  State.readReg_congr (by simp) q
@[simp] theorem State.readReg_portWrite (s : State) (v : Word) (q : RegIdx) : (s.portWrite v).readReg q = s.readReg q :=
  State.readReg_congr (by simp) q
@[simp] theorem State.readReg_placeWord (s : State) (w : Word) (q : RegIdx) : (s.placeWord w).readReg q = s.readReg q :=
  State.readReg_congr (by simp) q
@[simp] theorem State.readReg_supply (s : State) (cs : List Byte) (q : RegIdx) : (s.supply cs).readReg q = s.readReg q :=
  State.readReg_congr (by simp) q
@[simp] theorem State.readReg_retire (s : State) (a : Answer) (q : RegIdx) : (s.retire a).readReg q = s.readReg q :=
  State.readReg_congr (by simp) q
@[simp] theorem State.readReg_branch (s : State) (c : Bool) (imm : BitVec 13) (q : RegIdx) : (s.branch c imm).readReg q = s.readReg q :=
  State.readReg_congr (by simp) q

/-- What a register write does to a register read: `x[0]` stays 0, the written register has the value, the others are as
before. -/
theorem State.readReg_writeReg (s : State) (r q : RegIdx) (v : Word) :
    (s.writeReg r v).readReg q = if q = r ∧ q ≠ 0#5 then v else s.readReg q := by
  by_cases h0 : r = 0#5
  · subst h0
    by_cases hq : q = 0#5 <;> simp [hq]
  · by_cases h2 : r = 2#5
    · subst h2; rw [State.writeReg_two, State.readReg_noteSp, State.readReg_setReg]
    · rw [State.writeReg_other s r v h0 h2, State.readReg_setReg]

theorem State.readReg_finish (s : State) (r q : RegIdx) (v : Word) :
    (s.finish r v).readReg q = if q = r ∧ q ≠ 0#5 then v else s.readReg q := by
  simp [State.finish, State.readReg_writeReg]

theorem State.readReg_jumpAndLink (s : State) (r q : RegIdx) (t : Word) :
    (s.jumpAndLink r t).readReg q = if q = r ∧ q ≠ 0#5 then s.pc + 4#32 else s.readReg q := by
  simp [State.jumpAndLink, State.readReg_writeReg, State.nextPc]

end Sys2Proof.Machine
end

