-- ==== Sys2Proof/Laws/Ops.lean ====
section
/-! SUPPORT. For each shared operation, once, everything it can do. -/

namespace Sys2Proof.Machine

/-- What a read can be: an alignment error under enforcement, a port read with or without a character, or storage
(20_memory R55). -/
theorem State.memRead_cases (s : State) (a : Word) (n : AccessWidth) :
    (s.alignmentFails a n = true ∧ s.memRead a n = .fault (.unalignedAccess a n)) ∨
    (s.alignmentFails a n = false ∧ a = Config.ioPortAddr ∧ s.input[s.inPos]? = none ∧ s.memRead a n = .hold) ∨
    (∃ c, s.alignmentFails a n = false ∧ a = Config.ioPortAddr ∧ s.input[s.inPos]? = some c ∧
      s.memRead a n = .value (c.setWidth 32) { s with inPos := s.inPos + 1 }) ∨
    (s.alignmentFails a n = false ∧ a ≠ Config.ioPortAddr ∧ s.memRead a n = .value (s.mem.readValue a n) s) := by
  unfold State.memRead
  cases hf : s.alignmentFails a n
  · by_cases hp : a = Config.ioPortAddr
    · unfold State.portRead
      cases hc : s.input[s.inPos]? <;> simp [hp]
    · simp [hp]
  · simp

/-- What a write can be (20_memory R56). -/
theorem State.memWrite_cases (s : State) (a : Word) (n : AccessWidth) (v : Word) :
    (s.alignmentFails a n = true ∧ s.memWrite a n v = .fault (.unalignedAccess a n)) ∨
    (s.alignmentFails a n = false ∧ a = Config.ioPortAddr ∧ s.memWrite a n v = .done (s.portWrite v)) ∨
    (s.alignmentFails a n = false ∧ a ≠ Config.ioPortAddr ∧
      s.memWrite a n v = .done { s with mem := s.mem.writeValue a n v }) := by
  unfold State.memWrite
  cases hf : s.alignmentFails a n
  · by_cases hp : a = Config.ioPortAddr <;> simp [hp]
  · simp

/-- The alignment test in the words of the spec: enforcement is on and `a mod n ≠ 0` (20_memory R59). -/
theorem State.alignmentFails_iff (s : State) (a : Word) (n : AccessWidth) :
    s.alignmentFails a n = true ↔ s.alignEnforce = true ∧ a.toNat % n.bytes ≠ 0 := by
  simp [State.alignmentFails, misaligned]

/-- An access that passes the alignment test, in the words of the statements. -/
theorem State.alignmentFails_eq_false (s : State) (a : Word) (n : AccessWidth) (h : s.accessAllowed a n.bytes) :
    s.alignmentFails a n = false := by
  rw [Bool.eq_false_iff, ne_eq, State.alignmentFails_iff]
  exact fun hf => hf.2 (h hf.1)

/-- A byte access never fails (20_memory R59). -/
theorem State.alignmentFails_byte (s : State) (a : Word) : s.alignmentFails a .byte = false := by
  simp [State.alignmentFails, misaligned, AccessWidth.bytes, Nat.mod_one]

/-- What a load can be (43_loads R166, R172). -/
theorem State.load_cases (s : State) (n : AccessWidth) (e : Extension) (rd rs1 : RegIdx) (imm : BitVec 12) :
    (s.alignmentFails (s.effectiveAddress rs1 imm) n = true ∧
      s.load n e rd rs1 imm = s.raise (.unalignedAccess (s.effectiveAddress rs1 imm) n)) ∨
    (s.alignmentFails (s.effectiveAddress rs1 imm) n = false ∧ s.effectiveAddress rs1 imm = Config.ioPortAddr ∧
      s.input[s.inPos]? = none ∧ s.load n e rd rs1 imm = s) ∨
    (∃ c, s.alignmentFails (s.effectiveAddress rs1 imm) n = false ∧ s.effectiveAddress rs1 imm = Config.ioPortAddr ∧
      s.input[s.inPos]? = some c ∧
      s.load n e rd rs1 imm = { s with inPos := s.inPos + 1 }.finish rd (extendLoaded n e (c.setWidth 32))) ∨
    (s.alignmentFails (s.effectiveAddress rs1 imm) n = false ∧ s.effectiveAddress rs1 imm ≠ Config.ioPortAddr ∧
      s.load n e rd rs1 imm = s.finish rd (extendLoaded n e (s.mem.readValue (s.effectiveAddress rs1 imm) n))) := by
  unfold State.load
  rcases s.memRead_cases (s.effectiveAddress rs1 imm) n with ⟨hf, h⟩ | ⟨hf, hp, hc, h⟩ | ⟨c, hf, hp, hc, h⟩ | ⟨hf, hp, h⟩
  · exact .inl ⟨hf, by rw [h]⟩
  · exact .inr (.inl ⟨hf, hp, hc, by rw [h]⟩)
  · exact .inr (.inr (.inl ⟨c, hf, hp, hc, by rw [h]⟩))
  · exact .inr (.inr (.inr ⟨hf, hp, by rw [h]⟩))

/-- What a store can be (44_stores R181, R185). -/
theorem State.store_cases (s : State) (n : AccessWidth) (rs1 rs2 : RegIdx) (imm : BitVec 12) :
    (s.alignmentFails (s.effectiveAddress rs1 imm) n = true ∧
      s.store n rs1 rs2 imm = s.raise (.unalignedAccess (s.effectiveAddress rs1 imm) n)) ∨
    (s.alignmentFails (s.effectiveAddress rs1 imm) n = false ∧ s.effectiveAddress rs1 imm = Config.ioPortAddr ∧
      s.store n rs1 rs2 imm = (s.portWrite (s.readReg rs2)).retire .fallThrough) ∨
    (s.alignmentFails (s.effectiveAddress rs1 imm) n = false ∧ s.effectiveAddress rs1 imm ≠ Config.ioPortAddr ∧
      s.store n rs1 rs2 imm =
        { s with mem := s.mem.writeValue (s.effectiveAddress rs1 imm) n (s.readReg rs2) }.retire .fallThrough) := by
  unfold State.store
  rcases s.memWrite_cases (s.effectiveAddress rs1 imm) n (s.readReg rs2) with ⟨hf, h⟩ | ⟨hf, hp, h⟩ | ⟨hf, hp, h⟩
  · exact .inl ⟨hf, by rw [h]⟩
  · exact .inr (.inl ⟨hf, hp, by rw [h]⟩)
  · exact .inr (.inr ⟨hf, hp, by rw [h]⟩)

/-- What an instruction can do, over all of `Instr`: write a register and fall through, jump, branch, load, store, fall
through, or halt. -/
theorem exec_cases (i : Instr) (s : State) :
    (∃ rd v, exec i s = .next (s.finish rd v)) ∨
    (∃ rd t, exec i s = .next (s.jumpAndLink rd t)) ∨
    (∃ c imm, exec i s = .next (s.branch c imm)) ∨
    (∃ n e rd rs1 imm, exec i s = .next (s.load n e rd rs1 imm)) ∨
    (∃ n rs1 rs2 imm, exec i s = .next (s.store n rs1 rs2 imm)) ∨
    (exec i s = .next (s.retire .fallThrough)) ∨
    (exec i s = .next (s.retire .halt)) := by
  cases i
  case jal => exact .inr (.inl ⟨_, _, rfl⟩)
  case jalr => exact .inr (.inl ⟨_, _, rfl⟩)
  case beq => exact .inr (.inr (.inl ⟨_, _, rfl⟩))
  case bne => exact .inr (.inr (.inl ⟨_, _, rfl⟩))
  case blt => exact .inr (.inr (.inl ⟨_, _, rfl⟩))
  case bge => exact .inr (.inr (.inl ⟨_, _, rfl⟩))
  case bltu => exact .inr (.inr (.inl ⟨_, _, rfl⟩))
  case bgeu => exact .inr (.inr (.inl ⟨_, _, rfl⟩))
  case lb => exact .inr (.inr (.inr (.inl ⟨_, _, _, _, _, rfl⟩)))
  case lh => exact .inr (.inr (.inr (.inl ⟨_, _, _, _, _, rfl⟩)))
  case lw => exact .inr (.inr (.inr (.inl ⟨_, _, _, _, _, rfl⟩)))
  case lbu => exact .inr (.inr (.inr (.inl ⟨_, _, _, _, _, rfl⟩)))
  case lhu => exact .inr (.inr (.inr (.inl ⟨_, _, _, _, _, rfl⟩)))
  case sb => exact .inr (.inr (.inr (.inr (.inl ⟨_, _, _, _, rfl⟩))))
  case sh => exact .inr (.inr (.inr (.inr (.inl ⟨_, _, _, _, rfl⟩))))
  case sw => exact .inr (.inr (.inr (.inr (.inl ⟨_, _, _, _, rfl⟩))))
  case fence => exact .inr (.inr (.inr (.inr (.inr (.inl rfl)))))
  case ecall => exact .inr (.inr (.inr (.inr (.inr (.inr rfl)))))
  all_goals exact .inl ⟨_, _, rfl⟩

/-- What a step that answers a next state is: the hart is RUNNING with no fault recorded, and the step holds at the fetch,
records an alignment error of the fetch, records that the fetched word is no instruction, or executes the decoded one. -/
theorem step_cases {s t : State} (h : step s = .next t) :
    s.fault = none ∧ s.run = .running ∧
    ((s.fetch = .hold ∧ t = s) ∨
     (∃ f, s.fetch = .fault f ∧ t = s.raise f) ∨
     (∃ w s' r, s.fetch = .value w s' ∧ decode w = .error r ∧ t = s'.raise (rejectFault s.pc r)) ∨
     (∃ w s' i, s.fetch = .value w s' ∧ decode w = .ok i ∧ exec i s' = .next t)) := by
  unfold step engineStep at h
  cases hf : s.fault with
  | some f => rw [hf] at h; cases h
  | none =>
    rw [hf] at h
    cases hr : s.run with
    | halted => rw [hr] at h; cases h
    | running =>
      rw [hr] at h
      refine ⟨rfl, rfl, ?_⟩
      simp only [runningStep] at h
      cases hw : s.fetch with
      | hold => rw [hw] at h; cases h; exact .inl ⟨rfl, rfl⟩
      | fault f => rw [hw] at h; cases h; exact .inr (.inl ⟨f, rfl, rfl⟩)
      | value w s' =>
        rw [hw] at h
        simp only [executeWord] at h
        cases hd : decode w with
        | error r => rw [hd] at h; cases h; exact .inr (.inr (.inl ⟨w, s', r, rfl, hd, rfl⟩))
        | ok i => rw [hd] at h; exact .inr (.inr (.inr ⟨w, s', i, rfl, hd, h⟩))

/-- What a fetch can be (50_execution_engine R241). -/
theorem State.fetch_cases (s : State) :
    (s.alignmentFails s.pc .word = true ∧ s.fetch = .fault (.unalignedAccess s.pc .word)) ∨
    (s.pc = Config.ioPortAddr ∧ s.input[s.inPos]? = none ∧ s.fetch = .hold) ∨
    (∃ c, s.pc = Config.ioPortAddr ∧ s.input[s.inPos]? = some c ∧
      s.fetch = .value (c.setWidth 32) { s with inPos := s.inPos + 1 }) ∨
    (s.alignmentFails s.pc .word = false ∧ s.pc ≠ Config.ioPortAddr ∧ s.fetch = .value (s.mem.readValue s.pc .word) s) := by
  rcases s.memRead_cases s.pc .word with h | ⟨_, h⟩ | ⟨c, _, h⟩ | h
  · exact .inl h
  · exact .inr (.inl h)
  · exact .inr (.inr (.inl ⟨c, h⟩))
  · exact .inr (.inr (.inr h))

end Sys2Proof.Machine
end

