-- ==== Sys2Proof/Laws/Exec.lean ====
section
/-! SUPPORT. How an instruction ends: it completes, records an error, or holds; and that a word fetched from the port never
does the last two (20_memory R68), since such a word is below 256. -/

namespace Sys2Proof.Machine

/-- Every instruction answers a next state. -/
theorem exec_answers_next (i : Instr) (s : State) : ∃ t, exec i s = .next t := by cases i <;> exact ⟨_, rfl⟩

/-- The instruction has completed: it is counted, no error is recorded, and only ECALL halts. -/
def Completed (i : Instr) (s t : State) : Prop :=
  t.fault = s.fault ∧ t.run = (if i = .ecall then .halted else s.run) ∧ t.cycles = s.cycles + 1

/-- An instruction completes, or it is a load or store that records an error, or a load that holds. -/
theorem exec_ends {i : Instr} {s t : State} (h : exec i s = .next t) :
    Completed i s t ∨ (∃ f, t = s.raise f ∧ (isLoad i = true ∨ storeOperands i ≠ none)) ∨
    (t = s ∧ s.input[s.inPos]? = none ∧ isLoad i = true) := by
  cases i
  case lb rd rs1 imm | lh rd rs1 imm | lw rd rs1 imm | lbu rd rs1 imm | lhu rd rs1 imm =>
    have h' : Host.Outcome.next (s.load _ _ rd rs1 imm) = Host.Outcome.next t := h
    injection h' with h'
    rcases State.load_cases s _ _ rd rs1 imm with ⟨_, hl⟩ | ⟨_, _, hc, hl⟩ | ⟨c, _, _, _, hl⟩ | ⟨_, _, hl⟩
    · exact .inr (.inl ⟨_, h'.symm.trans hl, .inl rfl⟩)
    · exact .inr (.inr ⟨h'.symm.trans hl, hc, rfl⟩)
    · left; rw [← h', hl]; simp [Completed]
    · left; rw [← h', hl]; simp [Completed]
  case sb rs1 rs2 imm | sh rs1 rs2 imm | sw rs1 rs2 imm =>
    have h' : Host.Outcome.next (s.store _ rs1 rs2 imm) = Host.Outcome.next t := h
    injection h' with h'
    rcases State.store_cases s _ rs1 rs2 imm with ⟨_, hl⟩ | ⟨_, _, hl⟩ | ⟨_, _, hl⟩
    · exact .inr (.inl ⟨_, h'.symm.trans hl, .inr (by simp [storeOperands])⟩)
    · left; rw [← h', hl]; simp [Completed]
    · left; rw [← h', hl]; simp [Completed]
  all_goals (left; injection h with h; rw [← h]; simp [Completed])

/-- Which instructions a word below 256 can be: of loads and stores, only bytes at `x[0]`. -/
def fitsPortWord : Instr → Bool
  | .lb _ rs1 imm => rs1 == 0#5 && imm == 0#12
  | .sb rs1 _ _ => rs1 == 0#5
  | i => !isLoad i && (storeOperands i).isNone

theorem decode_port_word (c : Byte) : ∀ i, decode (c.setWidth 32) = .ok i → fitsPortWord i = true := by
  have key : ∀ c : Byte, (match decode (c.setWidth 32) with | .ok i => fitsPortWord i | .error _ => true) = true := by
    decide +kernel
  intro i h
  have := key c
  rwa [h] at this

/-- An instruction that was fetched from the port completes. -/
theorem exec_port_word {c : Byte} {i : Instr} {s t : State} (hd : decode (c.setWidth 32) = .ok i)
    (h : exec i s = .next t) : Completed i s t := by
  have hp := decode_port_word c i hd
  have hz : s.effectiveAddress 0#5 0#12 ≠ Config.ioPortAddr := by
    change (0#32 : Word) ≠ 0xA0001000#32; decide
  rcases exec_ends h with h1 | ⟨f, h1, h2⟩ | ⟨h1, h2, h3⟩
  · exact h1
  all_goals
    cases i <;> simp [fitsPortWord, isLoad, storeOperands] at hp <;> simp [isLoad, storeOperands] at *
  · rename_i rd rs1 imm
    have h' : Host.Outcome.next (s.load .byte .sign rd rs1 imm) = Host.Outcome.next t := h
    injection h' with h'
    rcases State.load_cases s .byte .sign rd rs1 imm with ⟨hf, hl⟩ | ⟨_, he, hc, hl⟩ | ⟨c, _, _, _, hl⟩ | ⟨_, _, hl⟩
    · rw [State.alignmentFails_byte] at hf; cases hf
    · rw [hp.1, hp.2] at he; exact absurd he hz
    · rw [← h', hl]; simp [Completed]
    · rw [← h', hl]; simp [Completed]
  · rename_i rs1 rs2 imm
    have h' : Host.Outcome.next (s.store .byte rs1 rs2 imm) = Host.Outcome.next t := h
    injection h' with h'
    rcases State.store_cases s .byte rs1 rs2 imm with ⟨hf, hl⟩ | ⟨_, _, hl⟩ | ⟨_, _, hl⟩
    · rw [State.alignmentFails_byte] at hf; cases hf
    · rw [← h', hl]; simp [Completed]
    · rw [← h', hl]; simp [Completed]
  · rename_i rd rs1 imm
    have h' : Host.Outcome.next (s.load .byte .sign rd rs1 imm) = Host.Outcome.next t := h
    injection h' with h'
    rcases State.load_cases s .byte .sign rd rs1 imm with ⟨hf, hl⟩ | ⟨_, he, hc, hl⟩ | ⟨c, _, _, _, hl⟩ | ⟨_, _, hl⟩
    · rw [State.alignmentFails_byte] at hf; cases hf
    · rw [hp.1, hp.2] at he; exact absurd he hz
    · rw [← h', hl]; simp [Completed]
    · rw [← h', hl]; simp [Completed]

end Sys2Proof.Machine
end

