-- ==== Sys2Proof/Laws/PerInstr.lean ====
section
/-! SUPPORT. Per instruction: the word the encoder writes matches its row of spec/opcode_table.json (`w & mask == match`,
30_encoding R117), the mask and match being copied from the table. -/

namespace Sys2Proof.Laws.RowPattern

/-- The row's mask. -/
def rowMask : Instr → Word
  | .lui _ _ => 0x0000007F#32
  | .auipc _ _ => 0x0000007F#32
  | .jal _ _ => 0x0000007F#32
  | .jalr _ _ _ => 0x0000007F#32
  | .beq _ _ _ => 0x0000707F#32
  | .bne _ _ _ => 0x0000707F#32
  | .blt _ _ _ => 0x0000707F#32
  | .bge _ _ _ => 0x0000707F#32
  | .bltu _ _ _ => 0x0000707F#32
  | .bgeu _ _ _ => 0x0000707F#32
  | .lb _ _ _ => 0x0000707F#32
  | .lh _ _ _ => 0x0000707F#32
  | .lw _ _ _ => 0x0000707F#32
  | .lbu _ _ _ => 0x0000707F#32
  | .lhu _ _ _ => 0x0000707F#32
  | .sb _ _ _ => 0x0000707F#32
  | .sh _ _ _ => 0x0000707F#32
  | .sw _ _ _ => 0x0000707F#32
  | .addi _ _ _ => 0x0000707F#32
  | .slti _ _ _ => 0x0000707F#32
  | .sltiu _ _ _ => 0x0000707F#32
  | .xori _ _ _ => 0x0000707F#32
  | .ori _ _ _ => 0x0000707F#32
  | .andi _ _ _ => 0x0000707F#32
  | .slli _ _ _ => 0xFE00707F#32
  | .srli _ _ _ => 0xFE00707F#32
  | .srai _ _ _ => 0xFE00707F#32
  | .add _ _ _ => 0xFE00707F#32
  | .sub _ _ _ => 0xFE00707F#32
  | .sll _ _ _ => 0xFE00707F#32
  | .slt _ _ _ => 0xFE00707F#32
  | .sltu _ _ _ => 0xFE00707F#32
  | .xor _ _ _ => 0xFE00707F#32
  | .srl _ _ _ => 0xFE00707F#32
  | .sra _ _ _ => 0xFE00707F#32
  | .or _ _ _ => 0xFE00707F#32
  | .and _ _ _ => 0xFE00707F#32
  | .fence => 0x0000007F#32
  | .ecall => 0x0000007F#32

/-- The row's match. -/
def rowMatch : Instr → Word
  | .lui _ _ => 0x00000037#32
  | .auipc _ _ => 0x00000017#32
  | .jal _ _ => 0x0000006F#32
  | .jalr _ _ _ => 0x00000067#32
  | .beq _ _ _ => 0x00000063#32
  | .bne _ _ _ => 0x00001063#32
  | .blt _ _ _ => 0x00004063#32
  | .bge _ _ _ => 0x00005063#32
  | .bltu _ _ _ => 0x00006063#32
  | .bgeu _ _ _ => 0x00007063#32
  | .lb _ _ _ => 0x00000003#32
  | .lh _ _ _ => 0x00001003#32
  | .lw _ _ _ => 0x00002003#32
  | .lbu _ _ _ => 0x00004003#32
  | .lhu _ _ _ => 0x00005003#32
  | .sb _ _ _ => 0x00000023#32
  | .sh _ _ _ => 0x00001023#32
  | .sw _ _ _ => 0x00002023#32
  | .addi _ _ _ => 0x00000013#32
  | .slti _ _ _ => 0x00002013#32
  | .sltiu _ _ _ => 0x00003013#32
  | .xori _ _ _ => 0x00004013#32
  | .ori _ _ _ => 0x00006013#32
  | .andi _ _ _ => 0x00007013#32
  | .slli _ _ _ => 0x00001013#32
  | .srli _ _ _ => 0x00005013#32
  | .srai _ _ _ => 0x40005013#32
  | .add _ _ _ => 0x00000033#32
  | .sub _ _ _ => 0x40000033#32
  | .sll _ _ _ => 0x00001033#32
  | .slt _ _ _ => 0x00002033#32
  | .sltu _ _ _ => 0x00003033#32
  | .xor _ _ _ => 0x00004033#32
  | .srl _ _ _ => 0x00005033#32
  | .sra _ _ _ => 0x40005033#32
  | .or _ _ _ => 0x00006033#32
  | .and _ _ _ => 0x00007033#32
  | .fence => 0x0000000F#32
  | .ecall => 0x00000073#32

/-- The encoded word is a word of the instruction's row. -/
def Statement (i : Instr) : Prop := encode i &&& rowMask i = rowMatch i

theorem maskR (op : BitVec 7) (f3 : BitVec 3) (f7 : BitVec 7) (rd rs1 rs2 : RegIdx) :
    encodeR op f3 f7 rd rs1 rs2 &&& 0xFE00707F#32 = f7 ++ 0#10 ++ f3 ++ 0#5 ++ op := by
  apply BitVec.eq_of_getLsbD_eq
  intro i hi
  simp only [encodeR, BitVec.getLsbD_and, BitVec.getLsbD_append]
  interval_cases i <;> simp

theorem maskShift (f3 : BitVec 3) (hi7 : BitVec 7) (rd rs1 : RegIdx) (shamt : BitVec 5) :
    encodeShift f3 hi7 rd rs1 shamt &&& 0xFE00707F#32 = hi7 ++ 0#10 ++ f3 ++ 0#5 ++ 0b0010011#7 := by
  apply BitVec.eq_of_getLsbD_eq
  intro i hi
  simp only [encodeShift, BitVec.getLsbD_and, BitVec.getLsbD_append]
  interval_cases i <;> simp

theorem maskI (op : BitVec 7) (f3 : BitVec 3) (rd rs1 : RegIdx) (imm : BitVec 12) :
    encodeI op f3 rd rs1 imm &&& 0x0000707F#32 = 0#17 ++ f3 ++ 0#5 ++ op := by
  apply BitVec.eq_of_getLsbD_eq
  intro i hi
  simp only [encodeI, BitVec.getLsbD_and, BitVec.getLsbD_append]
  interval_cases i <;> simp

theorem maskJalr (op : BitVec 7) (f3 : BitVec 3) (rd rs1 : RegIdx) (imm : BitVec 12) :
    encodeI op f3 rd rs1 imm &&& 0x0000007F#32 = 0#25 ++ op := by
  apply BitVec.eq_of_getLsbD_eq
  intro i hi
  simp only [encodeI, BitVec.getLsbD_and, BitVec.getLsbD_append]
  interval_cases i <;> simp

theorem maskS (op : BitVec 7) (f3 : BitVec 3) (rs1 rs2 : RegIdx) (imm : BitVec 12) :
    encodeS op f3 rs1 rs2 imm &&& 0x0000707F#32 = 0#17 ++ f3 ++ 0#5 ++ op := by
  apply BitVec.eq_of_getLsbD_eq
  intro i hi
  simp only [encodeS, BitVec.getLsbD_and, BitVec.getLsbD_append]
  interval_cases i <;> simp

theorem maskB (op : BitVec 7) (f3 : BitVec 3) (rs1 rs2 : RegIdx) (imm : BitVec 13) :
    encodeB op f3 rs1 rs2 imm &&& 0x0000707F#32 = 0#17 ++ f3 ++ 0#5 ++ op := by
  apply BitVec.eq_of_getLsbD_eq
  intro i hi
  simp only [encodeB, BitVec.getLsbD_and, BitVec.getLsbD_append]
  interval_cases i <;> simp

theorem maskU (op : BitVec 7) (rd : RegIdx) (imm : BitVec 32) :
    encodeU op rd imm &&& 0x0000007F#32 = 0#25 ++ op := by
  apply BitVec.eq_of_getLsbD_eq
  intro i hi
  simp only [encodeU, BitVec.getLsbD_and, BitVec.getLsbD_append]
  interval_cases i <;> simp

theorem maskJ (op : BitVec 7) (rd : RegIdx) (imm : BitVec 21) :
    encodeJ op rd imm &&& 0x0000007F#32 = 0#25 ++ op := by
  apply BitVec.eq_of_getLsbD_eq
  intro i hi
  simp only [encodeJ, BitVec.getLsbD_and, BitVec.getLsbD_append]
  interval_cases i <;> simp

theorem lui (rd : RegIdx) (imm : BitVec 32) : Statement (.lui rd imm) := (maskU _ _ _).trans rfl
theorem auipc (rd : RegIdx) (imm : BitVec 32) : Statement (.auipc rd imm) := (maskU _ _ _).trans rfl
theorem jal (rd : RegIdx) (imm : BitVec 21) : Statement (.jal rd imm) := (maskJ _ _ _).trans rfl
theorem jalr (rd rs1 : RegIdx) (imm : BitVec 12) : Statement (.jalr rd rs1 imm) := (maskJalr _ _ _ _ _).trans rfl
theorem beq (rs1 rs2 : RegIdx) (imm : BitVec 13) : Statement (.beq rs1 rs2 imm) := (maskB _ _ _ _ _).trans rfl
theorem bne (rs1 rs2 : RegIdx) (imm : BitVec 13) : Statement (.bne rs1 rs2 imm) := (maskB _ _ _ _ _).trans rfl
theorem blt (rs1 rs2 : RegIdx) (imm : BitVec 13) : Statement (.blt rs1 rs2 imm) := (maskB _ _ _ _ _).trans rfl
theorem bge (rs1 rs2 : RegIdx) (imm : BitVec 13) : Statement (.bge rs1 rs2 imm) := (maskB _ _ _ _ _).trans rfl
theorem bltu (rs1 rs2 : RegIdx) (imm : BitVec 13) : Statement (.bltu rs1 rs2 imm) := (maskB _ _ _ _ _).trans rfl
theorem bgeu (rs1 rs2 : RegIdx) (imm : BitVec 13) : Statement (.bgeu rs1 rs2 imm) := (maskB _ _ _ _ _).trans rfl
theorem lb (rd rs1 : RegIdx) (imm : BitVec 12) : Statement (.lb rd rs1 imm) := (maskI _ _ _ _ _).trans rfl
theorem lh (rd rs1 : RegIdx) (imm : BitVec 12) : Statement (.lh rd rs1 imm) := (maskI _ _ _ _ _).trans rfl
theorem lw (rd rs1 : RegIdx) (imm : BitVec 12) : Statement (.lw rd rs1 imm) := (maskI _ _ _ _ _).trans rfl
theorem lbu (rd rs1 : RegIdx) (imm : BitVec 12) : Statement (.lbu rd rs1 imm) := (maskI _ _ _ _ _).trans rfl
theorem lhu (rd rs1 : RegIdx) (imm : BitVec 12) : Statement (.lhu rd rs1 imm) := (maskI _ _ _ _ _).trans rfl
theorem sb (rs1 rs2 : RegIdx) (imm : BitVec 12) : Statement (.sb rs1 rs2 imm) := (maskS _ _ _ _ _).trans rfl
theorem sh (rs1 rs2 : RegIdx) (imm : BitVec 12) : Statement (.sh rs1 rs2 imm) := (maskS _ _ _ _ _).trans rfl
theorem sw (rs1 rs2 : RegIdx) (imm : BitVec 12) : Statement (.sw rs1 rs2 imm) := (maskS _ _ _ _ _).trans rfl
theorem addi (rd rs1 : RegIdx) (imm : BitVec 12) : Statement (.addi rd rs1 imm) := (maskI _ _ _ _ _).trans rfl
theorem slti (rd rs1 : RegIdx) (imm : BitVec 12) : Statement (.slti rd rs1 imm) := (maskI _ _ _ _ _).trans rfl
theorem sltiu (rd rs1 : RegIdx) (imm : BitVec 12) : Statement (.sltiu rd rs1 imm) := (maskI _ _ _ _ _).trans rfl
theorem xori (rd rs1 : RegIdx) (imm : BitVec 12) : Statement (.xori rd rs1 imm) := (maskI _ _ _ _ _).trans rfl
theorem ori (rd rs1 : RegIdx) (imm : BitVec 12) : Statement (.ori rd rs1 imm) := (maskI _ _ _ _ _).trans rfl
theorem andi (rd rs1 : RegIdx) (imm : BitVec 12) : Statement (.andi rd rs1 imm) := (maskI _ _ _ _ _).trans rfl
theorem slli (rd rs1 : RegIdx) (shamt : BitVec 5) : Statement (.slli rd rs1 shamt) := (maskShift _ _ _ _ _).trans rfl
theorem srli (rd rs1 : RegIdx) (shamt : BitVec 5) : Statement (.srli rd rs1 shamt) := (maskShift _ _ _ _ _).trans rfl
theorem srai (rd rs1 : RegIdx) (shamt : BitVec 5) : Statement (.srai rd rs1 shamt) := (maskShift _ _ _ _ _).trans rfl
theorem add (rd rs1 rs2 : RegIdx) : Statement (.add rd rs1 rs2) := (maskR _ _ _ _ _ _).trans rfl
theorem sub (rd rs1 rs2 : RegIdx) : Statement (.sub rd rs1 rs2) := (maskR _ _ _ _ _ _).trans rfl
theorem sll (rd rs1 rs2 : RegIdx) : Statement (.sll rd rs1 rs2) := (maskR _ _ _ _ _ _).trans rfl
theorem slt (rd rs1 rs2 : RegIdx) : Statement (.slt rd rs1 rs2) := (maskR _ _ _ _ _ _).trans rfl
theorem sltu (rd rs1 rs2 : RegIdx) : Statement (.sltu rd rs1 rs2) := (maskR _ _ _ _ _ _).trans rfl
theorem xor (rd rs1 rs2 : RegIdx) : Statement (.xor rd rs1 rs2) := (maskR _ _ _ _ _ _).trans rfl
theorem srl (rd rs1 rs2 : RegIdx) : Statement (.srl rd rs1 rs2) := (maskR _ _ _ _ _ _).trans rfl
theorem sra (rd rs1 rs2 : RegIdx) : Statement (.sra rd rs1 rs2) := (maskR _ _ _ _ _ _).trans rfl
theorem or (rd rs1 rs2 : RegIdx) : Statement (.or rd rs1 rs2) := (maskR _ _ _ _ _ _).trans rfl
theorem and (rd rs1 rs2 : RegIdx) : Statement (.and rd rs1 rs2) := (maskR _ _ _ _ _ _).trans rfl
theorem fence : Statement .fence := rfl
theorem ecall : Statement .ecall := rfl

end Sys2Proof.Laws.RowPattern
end

