-- ==== Sys2Proof/Laws/Values.lean ====
section
/-! SUPPORT. The values the operations of Machine/ compute, in the terms of Safety.lean: sign extension, the fields of a word,
the cells of an access and the bytes of a value. -/

namespace Sys2Proof.Machine

/-- Sign extension by subtraction (00_scope R12). -/
theorem sext_eq_mod32 {n : Nat} (h1 : 1 ≤ n) (v : BitVec n) : sext v = mod32 (sextInt v) := by
  unfold sext mod32 BitVec.signExtend
  congr 1
  rw [BitVec.toInt_eq_toNat_cond, sextInt]
  have hp : 2 ^ n = 2 * 2 ^ (n - 1) := by rw [← pow_succ']; congr; omega
  by_cases h : v.toNat < 2 ^ (n - 1)
  · rw [if_pos (by omega), if_pos h]
  · rw [if_neg (by omega), if_neg h]

/-- Reduction modulo 2^32 is additive. -/
theorem mod32_add (a b : Int) : mod32 (a + b) = mod32 a + mod32 b := by simp [mod32, BitVec.ofInt_add]

/-- A register's unsigned value is its own reduction. -/
theorem mod32_toNat (w : Word) : mod32 (w.toNat : Int) = w := by simp [mod32]

/-- Concatenation as a sum. -/
theorem toNat_append_add {n m : Nat} (a : BitVec n) (b : BitVec m) : (a ++ b).toNat = a.toNat * 2 ^ m + b.toNat := by
  rw [BitVec.toNat_append, ← Nat.shiftLeft_add_eq_or_of_lt b.isLt, Nat.shiftLeft_eq]

/-- The cells of an access as the sum of 20_memory R55. -/
theorem Memory.readValue_eq_cellSum (m : Memory) (a : Word) (n : AccessWidth) :
    m.readValue a n = BitVec.ofNat 32 (cellSum m a n.bytes) := by
  apply BitVec.eq_of_toNat_eq
  have h0 := (m.read ((a.toNat + 0) % 2 ^ 32)).isLt
  have h1 := (m.read ((a.toNat + 1) % 2 ^ 32)).isLt
  have h2 := (m.read ((a.toNat + 2) % 2 ^ 32)).isLt
  have h3 := (m.read ((a.toNat + 3) % 2 ^ 32)).isLt
  cases n <;>
    simp only [Memory.readValue, cellSum, byteAddr_eq, toNat_append_add, BitVec.toNat_setWidth, BitVec.toNat_ofNat,
      AccessWidth.bytes] <;>
    omega

/-- Byte `i` of a value (20_memory R53). -/
theorem byteOf_eq (v : Word) (i : Nat) : byteOf v i = BitVec.ofNat 8 (v.toNat / 256 ^ i) := by
  apply BitVec.eq_of_toNat_eq
  simp [byteOf, Nat.shiftRight_eq_div_pow, pow_mul]

end Sys2Proof.Machine
end

