-- ==== Sys2Proof/Tests/Slice0.lean ====
section
/-! SUPPORT. The model's own tests. Words, inputs and results are those of the examples and vectors of spec/ (the file is
named beside each group); none comes from a run of this model. -/

namespace Sys2Proof.Tests

open Sys2Proof.Machine

/-! ### Helpers -/

/-- Every register 0 unless given, `pc = 0x100`, `cycles = 0` (95_test_vectors, conventions). -/
def start (regs : List (RegIdx × Word)) : State :=
  regs.foldl (fun s p => s.setReg p.1 p.2) { State.reset with pc := 0x100#32 }

/-- The same with cells given as a canonical list. -/
def startMem (regs : List (RegIdx × Word)) (mem : Memory) : State := { start regs with mem := mem }

/-- The step that fetches `w` at `pc`. -/
def stepOf (w : Word) (s : State) : Host.Outcome State Fault Refusal := step (s.placeWord w)

/-- What `f` reads of the next state. -/
def after {α : Type} (o : Host.Outcome State Fault Refusal) (f : State → α) : Option α :=
  match o with
  | .next t => some (f t)
  | .fault _ => none
  | .refused _ => none

/-- `x[5]` after the word at `0x100` with `x[6]` and `x[7]` as given. -/
def x5After (w x6 x7 : Word) : Option Word := after (stepOf w (start [(6#5, x6), (7#5, x7)])) fun t => t.readReg 5#5

/-- `pc` after the word at `0x100` with `x[1]` and `x[2]` as given. -/
def pcAfter (w x1 x2 : Word) : Option Word := after (stepOf w (start [(1#5, x1), (2#5, x2)])) fun t => t.pc

/-- The fault record after the word at `0x100`. -/
def faultAfter (w : Word) (s : State) : Option (Option Fault) := after (stepOf w s) fun t => t.fault

/-! ### Well-formedness: one ill-formed term per check -/

theorem test_wf_branch_odd : WellFormed (.beq 1 2 0x0009#13) = false := by decide
theorem test_wf_jal_odd : WellFormed (.jal 1 0x000001#21) = false := by decide
theorem test_wf_lui_low_bits : WellFormed (.lui 5 0x12345001#32) = false := by decide
theorem test_wf_auipc_low_bits : WellFormed (.auipc 5 0x00000800#32) = false := by decide
theorem test_wf_accepts : WellFormed (.bne 5 0 0x1FF8#13) = true ∧ WellFormed (.jal 0 0x1FFFEC#21) = true ∧
    WellFormed (.lui 5 0x12345000#32) = true := by decide

/-! ### Decoding: one word per constructor, bit 31 first (fields of 30_encoding R94 to R112, examples of 40 to 48) -/

theorem test_decode_lui : decode 0b00010010001101000101_00101_0110111#32 = .ok (.lui 5 0x12345000#32) := by decide
theorem test_decode_auipc : decode 0b00000000000000000001_00101_0010111#32 = .ok (.auipc 5 0x00001000#32) := by decide
theorem test_decode_jal : decode 0b1_1111110110_1_11111111_00000_1101111#32 = .ok (.jal 0 0x1FFFEC#21) := by decide
theorem test_decode_jalr : decode 0b000000001000_00001_000_00001_1100111#32 = .ok (.jalr 1 1 0x008#12) := by decide
theorem test_decode_beq : decode 0b0_111111_00000_00000_000_1111_1_1100011#32 = .ok (.beq 0 0 0x0FFE#13) := by decide
theorem test_decode_bne : decode 0b1_111111_00000_00101_001_1100_1_1100011#32 = .ok (.bne 5 0 0x1FF8#13) := by decide
theorem test_decode_blt : decode 0b0_000000_00010_00001_100_0100_0_1100011#32 = .ok (.blt 1 2 0x0008#13) := by decide
theorem test_decode_bge : decode 0b0_000000_00010_00001_101_0100_0_1100011#32 = .ok (.bge 1 2 0x0008#13) := by decide
theorem test_decode_bltu : decode 0b0_000000_00010_00001_110_0100_0_1100011#32 = .ok (.bltu 1 2 0x0008#13) := by decide
theorem test_decode_bgeu : decode 0b0_000000_00010_00001_111_0100_0_1100011#32 = .ok (.bgeu 1 2 0x0008#13) := by decide
theorem test_decode_lb : decode 0b000000000000_00110_000_00101_0000011#32 = .ok (.lb 5 6 0x000#12) := by decide
theorem test_decode_lh : decode 0b000000000001_00110_001_00101_0000011#32 = .ok (.lh 5 6 0x001#12) := by decide
theorem test_decode_lw : decode 0b111111111100_00110_010_00101_0000011#32 = .ok (.lw 5 6 0xFFC#12) := by decide
theorem test_decode_lbu : decode 0b000000000000_00110_100_00101_0000011#32 = .ok (.lbu 5 6 0x000#12) := by decide
theorem test_decode_lhu : decode 0b000000000011_00110_101_00101_0000011#32 = .ok (.lhu 5 6 0x003#12) := by decide
theorem test_decode_sb : decode 0b0000000_00101_00110_000_00001_0100011#32 = .ok (.sb 6 5 0x001#12) := by decide
theorem test_decode_sh : decode 0b0000000_00101_00110_001_00000_0100011#32 = .ok (.sh 6 5 0x000#12) := by decide
theorem test_decode_sw : decode 0b1111111_00101_00110_010_11100_0100011#32 = .ok (.sw 6 5 0xFFC#12) := by decide
theorem test_decode_addi : decode 0b111111111111_00000_000_00001_0010011#32 = .ok (.addi 1 0 0xFFF#12) := by decide
theorem test_decode_slti : decode 0b111111111111_00110_010_00101_0010011#32 = .ok (.slti 5 6 0xFFF#12) := by decide
theorem test_decode_sltiu : decode 0b111111111111_00110_011_00101_0010011#32 = .ok (.sltiu 5 6 0xFFF#12) := by decide
theorem test_decode_xori : decode 0b111111111111_00110_100_00101_0010011#32 = .ok (.xori 5 6 0xFFF#12) := by decide
theorem test_decode_ori : decode 0b100000000000_00110_110_00101_0010011#32 = .ok (.ori 5 6 0x800#12) := by decide
theorem test_decode_andi : decode 0b000011111111_00110_111_00101_0010011#32 = .ok (.andi 5 6 0x0FF#12) := by decide
theorem test_decode_slli : decode 0b0000000_00001_00110_001_00101_0010011#32 = .ok (.slli 5 6 1#5) := by decide
theorem test_decode_srli : decode 0b0000000_00001_00110_101_00101_0010011#32 = .ok (.srli 5 6 1#5) := by decide
theorem test_decode_srai : decode 0b0100000_11111_00110_101_00101_0010011#32 = .ok (.srai 5 6 31#5) := by decide
theorem test_decode_add : decode 0b0000000_00111_00110_000_00101_0110011#32 = .ok (.add 5 6 7) := by decide
theorem test_decode_sub : decode 0b0100000_00111_00110_000_00101_0110011#32 = .ok (.sub 5 6 7) := by decide
theorem test_decode_sll : decode 0b0000000_00111_00110_001_00101_0110011#32 = .ok (.sll 5 6 7) := by decide
theorem test_decode_slt : decode 0b0000000_00111_00110_010_00101_0110011#32 = .ok (.slt 5 6 7) := by decide
theorem test_decode_sltu : decode 0b0000000_00111_00110_011_00101_0110011#32 = .ok (.sltu 5 6 7) := by decide
theorem test_decode_xor : decode 0b0000000_00111_00110_100_00101_0110011#32 = .ok (.xor 5 6 7) := by decide
theorem test_decode_srl : decode 0b0000000_00111_00110_101_00101_0110011#32 = .ok (.srl 5 6 7) := by decide
theorem test_decode_sra : decode 0b0100000_00111_00110_101_00101_0110011#32 = .ok (.sra 5 6 7) := by decide
theorem test_decode_or : decode 0b0000000_00111_00110_110_00101_0110011#32 = .ok (.or 5 6 7) := by decide
theorem test_decode_and : decode 0b0000000_00111_00110_111_00101_0110011#32 = .ok (.and 5 6 7) := by decide
theorem test_decode_fence : decode 0b0000_1111_1111_00000_000_00000_0001111#32 = .ok .fence := by decide
theorem test_decode_ecall : decode 0b000000000000_00000_000_00000_1110011#32 = .ok .ecall := by decide

/-- The hexadecimal words of the rules' examples are the encoder's (40 to 48). -/
theorem test_encode : encode (.jal 1 0x000020#21) = 0x020000EF#32 ∧ encode (.blt 1 2 0x0008#13) = 0x0020C463#32 ∧
    encode (.sw 6 5 0xFFC#12) = 0xFE532E23#32 ∧ encode (.srai 5 6 31#5) = 0x41F35293#32 ∧
    encode (.lui 11 0x89ABD000#32) = 0x89ABD5B7#32 ∧ encode (.sra 5 6 7) = 0x407352B3#32 := by decide

/-- Ignored bits: `0000F067` is JALR x0, 0(x1); `0000100F` is FENCE; `00100073` and `C00022F3` are ECALL (R110 to R112). -/
theorem test_decode_ignored_bits : decode 0x0000F067#32 = .ok (.jalr 0 1 0x000#12) ∧ decode 0x0000100F#32 = .ok .fence ∧
    decode 0x00100073#32 = .ok .ecall ∧ decode 0xC00022F3#32 = .ok .ecall := by decide

/-- Branch, load and store words with a bad `funct3` (R157, R165, R180). -/
theorem test_reject_funct3 : decode 0x0020A463#32 = .error (.invalidEncoding .funct3 2) ∧
    decode 0x00033283#32 = .error (.invalidEncoding .funct3 3) ∧ decode 0x00037283#32 = .error (.invalidEncoding .funct3 7) ∧
    decode 0x00534023#32 = .error (.invalidEncoding .funct3 4) := by decide

/-- Shift words with bad high bits (R200). -/
theorem test_reject_hi7 : decode 0x40131293#32 = .error (.invalidEncoding .immHi7 0x20) ∧
    decode 0x02135293#32 = .error (.invalidEncoding .immHi7 0x01) ∧
    decode 0xFE135293#32 = .error (.invalidEncoding .immHi7 0x7F) := by decide

/-- ArithReg words with a bad `funct7` (R221). -/
theorem test_reject_funct7 : decode 0x027302B3#32 = .error (.invalidEncoding .funct7 0x01) ∧
    decode 0x407372B3#32 = .error (.invalidEncoding .funct7 0x20) ∧
    decode 0x807302B3#32 = .error (.invalidEncoding .funct7 0x40) := by decide

/-- A word of zeros has no handler (R104). -/
theorem test_reject_opcode : decode 0#32 = .error (.unimplementedOpcode 0#7) := by decide

/-- 95_test_vectors 2.1. -/
theorem test_bitfield : (extractBitfield 0x89ABCDEF#32 15 8).toNat = 0xCD ∧ (extractBitfield 0x89ABCDEF#32 31 31).toNat = 1 ∧
    (extractBitfield 0x89ABCDEF#32 6 0).toNat = 0x6F ∧ sext 0x1000#13 = 0xFFFFF000#32 ∧ sext 0x7F#8 = 127#32 := by decide

/-! ### Instructions, one step each (95_test_vectors part 2, examples of 40 to 48) -/

theorem test_lui : after (stepOf 0xFFFFF2B7#32 (start [])) (fun t => (t.readReg 5#5, t.pc, t.cycles)) =
    some (0xFFFFF000#32, 0x104#32, 1) := by decide
theorem test_lui_watermarks : after (stepOf 0x80000137#32
      { start [(2#5, 0x1000#32)] with spMax := some 0x1000#32, spMin := some 0x1000#32 })
    (fun t => (t.readReg 2#5, t.spMax, t.spMin)) = some (0x80000000#32, some 0x80000000#32, some 0x1000#32) := by decide
theorem test_auipc : x5After 0xFFFFF297#32 0#32 0#32 = some 0xFFFFF100#32 := by decide
theorem test_auipc_wraps : after (stepOf 0x80000297#32 { start [] with pc := 0x80000000#32 })
    (fun t => (t.readReg 5#5, t.pc)) = some (0#32, 0x80000004#32) := by decide
theorem test_jal : after (stepOf 0x800000EF#32 (start [])) (fun t => (t.readReg 1#5, t.pc)) =
    some (0x104#32, 0xFFF00100#32) := by decide
theorem test_jal_link_wraps : after (stepOf 0x008000EF#32 { start [] with pc := 0xFFFFFFFC#32 })
    (fun t => (t.readReg 1#5, t.pc)) = some (0#32, 4#32) := by decide
theorem test_jalr_same_register : after (stepOf 0x008080E7#32 (start [(1#5, 0x200#32)]))
    (fun t => (t.readReg 1#5, t.pc)) = some (0x104#32, 0x208#32) := by decide
theorem test_jalr_keeps_bit0 : after (stepOf 0x001302E7#32 (start [(6#5, 0x200#32)])) (fun t => t.pc) =
    some 0x201#32 := by decide
theorem test_beq : pcAfter 0x00208463#32 5#32 5#32 = some 0x108#32 ∧ pcAfter 0x00208463#32 5#32 6#32 = some 0x104#32 := by
  decide
theorem test_beq_backward_wraps : after (stepOf 0xFE000CE3#32 { start [] with pc := 4#32 }) (fun t => t.pc) =
    some 0xFFFFFFFC#32 := by decide
theorem test_bne : pcAfter 0x00209463#32 5#32 6#32 = some 0x108#32 ∧ pcAfter 0x00209463#32 5#32 5#32 = some 0x104#32 := by
  decide
theorem test_blt : pcAfter 0x0020C463#32 0xFFFFFFFF#32 1#32 = some 0x108#32 ∧
    pcAfter 0x0020C463#32 1#32 0xFFFFFFFF#32 = some 0x104#32 := by decide
theorem test_bge : pcAfter 0x0020D463#32 0xFFFFFFFF#32 1#32 = some 0x104#32 ∧
    pcAfter 0x0020D463#32 5#32 5#32 = some 0x108#32 := by decide
theorem test_bltu : pcAfter 0x0020E463#32 0xFFFFFFFF#32 1#32 = some 0x104#32 ∧
    pcAfter 0x0020E463#32 1#32 0xFFFFFFFF#32 = some 0x108#32 := by decide
theorem test_bgeu : pcAfter 0x0020F463#32 0xFFFFFFFF#32 1#32 = some 0x108#32 ∧
    pcAfter 0x0020F463#32 5#32 6#32 = some 0x104#32 := by decide

/-- The memory of 95_test_vectors 2.5. -/
def loadMem : Memory := [(0x1000, 0xEF#8), (0x1001, 0xCD#8), (0x1002, 0xAB#8), (0x1003, 0x89#8), (0x1004, 0x7F#8), (0x1005, 0x80#8)]

/-- `x[5]` after a load word with `x[6] = 0x1000`. -/
def loaded (w : Word) : Option Word := after (stepOf w (startMem [(6#5, 0x1000#32)] loadMem)) fun t => t.readReg 5#5

theorem test_lb : loaded 0x00130283#32 = some 0xFFFFFFCD#32 := by decide
theorem test_lh : loaded 0x00131283#32 = some 0xFFFFABCD#32 ∧ loaded 0x00331283#32 = some 0x00007F89#32 := by decide
theorem test_lw : loaded 0x00132283#32 = some 0x7F89ABCD#32 ∧ loaded 0x00332283#32 = some 0x00807F89#32 := by decide
theorem test_lw_wraps : after (stepOf 0x00032283#32 (startMem [(6#5, 0xFFFFFFFE#32)]
      [(0, 0x33#8), (1, 0x44#8), (0xFFFFFFFE, 0x11#8), (0xFFFFFFFF, 0x22#8)])) (fun t => t.readReg 5#5) =
    some 0x44332211#32 := by decide
theorem test_lbu : loaded 0x00134283#32 = some 0x000000CD#32 := by decide
theorem test_lhu : loaded 0x00035283#32 = some 0x0000CDEF#32 := by decide

/-- The hart with `x[6]` at the port and characters supplied. -/
def portState (cs : List Byte) : State := { start [(6#5, 0xA0001000#32)] with input := cs }

theorem test_lb_port : after (stepOf 0x00030283#32 (portState [0x80#8, 0x41#8])) (fun t => (t.readReg 5#5, t.inPos)) =
    some (0xFFFFFF80#32, 1) := by decide
theorem test_lbu_port_hold : stepOf 0x00034283#32 (portState []) = .next ((portState []).placeWord 0x00034283#32) := by
  rfl
theorem test_lh_port : after (stepOf 0x00031283#32 (portState [0x80#8, 0x41#8])) (fun t => (t.readReg 5#5, t.inPos)) =
    some (0x00000080#32, 1) := by decide
theorem test_lhu_misaligned : faultAfter 0x00135283#32
    { startMem [(6#5, 0x1000#32)] loadMem with alignEnforce := true } = some (some (.unalignedAccess 0x1001#32 .half)) := by
  decide

/-- What stands in the cells from `a` after a store word with `x[5] = 0x89ABCDEF` and `x[6]` as given. -/
def stored (w x6 : Word) (cells : List Nat) : Option (List Byte) :=
  after (stepOf w (start [(5#5, 0x89ABCDEF#32), (6#5, x6)])) fun t => cells.map t.mem.read

theorem test_sb : stored 0x005300A3#32 0x1000#32 [0x1000, 0x1001, 0x1002] = some [0#8, 0xEF#8, 0#8] := by decide
theorem test_sh : stored 0x005310A3#32 0x1000#32 [0x1000, 0x1001, 0x1002, 0x1003] = some [0#8, 0xEF#8, 0xCD#8, 0#8] := by decide
theorem test_sw_wraps : stored 0x00532023#32 0xFFFFFFFE#32 [0xFFFFFFFE, 0xFFFFFFFF, 0, 1] =
    some [0xEF#8, 0xCD#8, 0xAB#8, 0x89#8] := by decide
theorem test_sw_port : after (stepOf 0x00532023#32 (start [(5#5, 0x41424344#32), (6#5, 0xA0001000#32)]))
    (fun t => (t.out, t.mem.read 0xA0001000)) = some ([0x44#8], 0#8) := by decide
theorem test_sh_port : after (stepOf 0x00531023#32 (start [(5#5, 0x4142#32), (6#5, 0xA0001000#32)])) (fun t => t.out) =
    some [0x42#8] := by decide
theorem test_sb_enforced : after (stepOf 0x005301A3#32
      { start [(5#5, 0x89ABCDEF#32), (6#5, 0x1000#32)] with alignEnforce := true }) (fun t => (t.fault, t.mem.read 0x1003)) =
    some (none, 0xEF#8) := by decide

theorem test_addi : x5After 0x00130293#32 0x7FFFFFFF#32 0#32 = some 0x80000000#32 ∧
    x5After 0x80030293#32 5#32 0#32 = some 0xFFFFF805#32 := by decide
theorem test_addi_watermarks : after (stepOf 0xFF010113#32 (start [])) (fun t => (t.readReg 2#5, t.spMax, t.spMin)) =
    some (0xFFFFFFF0#32, some 0xFFFFFFF0#32, some 0#32) := by decide
theorem test_slti : x5After 0xFFF32293#32 0xFFFFFFFE#32 0#32 = some 1#32 ∧ x5After 0xFFF32293#32 0#32 0#32 = some 0#32 := by
  decide
theorem test_sltiu : x5After 0xFFF33293#32 0#32 0#32 = some 1#32 ∧ x5After 0x80033293#32 0xFFFFF800#32 0#32 = some 0#32 := by
  decide
theorem test_xori : x5After 0xFFF34293#32 0x12345678#32 0#32 = some 0xEDCBA987#32 := by decide
theorem test_ori : x5After 0x80036293#32 1#32 0#32 = some 0xFFFFF801#32 := by decide
theorem test_andi : x5After 0xF0037293#32 0x12345678#32 0#32 = some 0x12345600#32 := by decide
theorem test_slli : x5After 0x00131293#32 0x80000001#32 0#32 = some 2#32 ∧ x5After 0x01F31293#32 1#32 0#32 = some 0x80000000#32 := by
  decide
theorem test_srli : x5After 0x00135293#32 0x80000000#32 0#32 = some 0x40000000#32 := by decide
theorem test_srai : x5After 0x41F35293#32 0x80000000#32 0#32 = some 0xFFFFFFFF#32 ∧
    x5After 0x41F35293#32 0x7FFFFFFF#32 0#32 = some 0#32 := by decide
theorem test_add : x5After 0x007302B3#32 0xFFFFFFFF#32 1#32 = some 0#32 := by decide
theorem test_sub : x5After 0x407302B3#32 3#32 5#32 = some 0xFFFFFFFE#32 := by decide
theorem test_sll : x5After 0x007312B3#32 1#32 0x20#32 = some 1#32 ∧
    x5After 0x007312B3#32 0xFFFFFFFF#32 0xFFFFFFE4#32 = some 0xFFFFFFF0#32 := by decide
theorem test_slt : x5After 0x007322B3#32 0x80000000#32 0x7FFFFFFF#32 = some 1#32 := by decide
theorem test_sltu : x5After 0x007332B3#32 0x80000000#32 0x7FFFFFFF#32 = some 0#32 := by decide
theorem test_xor : x5After 0x007342B3#32 0xFF00FF00#32 0x0FF00FF0#32 = some 0xF0F0F0F0#32 := by decide
theorem test_srl : x5After 0x007352B3#32 0x80000000#32 0x21#32 = some 0x40000000#32 := by decide
theorem test_sra : x5After 0x407352B3#32 0x80000000#32 0x21#32 = some 0xC0000000#32 ∧
    x5After 0x407352B3#32 0x7FFFFFFF#32 4#32 = some 0x07FFFFFF#32 := by decide
theorem test_or : x5After 0x007362B3#32 0xFF00FF00#32 0x0FF00FF0#32 = some 0xFFF0FFF0#32 := by decide
theorem test_and : x5After 0x007372B3#32 0xFF00FF00#32 0x0FF00FF0#32 = some 0x0F000F00#32 := by decide
theorem test_fence : after (stepOf 0x0000028F#32 (start [])) (fun t => (t.pc, t.cycles, t.readReg 5#5)) =
    some (0x104#32, 1, 0#32) := by decide
theorem test_ecall : after (stepOf 0x00000073#32 { start [] with pc := 0xC#32, cycles := 1 })
    (fun t => (t.pc, t.cycles, t.run)) = some (0x10#32, 2, .halted) := by decide

/-! ### Errors, the port as program, and reset -/

/-- The record, and no move of `pc` or `cycles` (60_exceptions R286). -/
theorem test_fault_leaves_pc : after (stepOf 0x027302B3#32 (start [])) (fun t => (t.fault, t.pc, t.cycles)) =
    some (some (.invalidEncoding .funct7 0x01 0x100#32), 0x100#32, 0) := by decide

/-- The first step from reset fetches the word of zeros the empty image leaves at 0: UnimplementedOpcode (R281). -/
theorem test_reset_step : after (step State.reset) (fun t => t.fault) = some (some (.unimplementedOpcode 0#7 0#32)) := by decide

/-- A character `s`, 0x73, fetched from the port is an ECALL (20_memory R68). -/
theorem test_port_fetch : after (step { start [] with pc := 0xA0001000#32, input := [0x73#8] })
    (fun t => (t.run, t.inPos, t.pc)) = some (.halted, 1, 0xA0001004#32) := by decide

/-- Reset with the image of 5 bytes of 95_test_vectors 2.11: the missing bytes 5 to 7 read 0. -/
theorem test_boot : (State.boot [0x00#8, 0x10#8, 0#8, 0#8, 0x08#8] (Vector.replicate 32 0x77#32) false []).pc = 8#32 ∧
    (State.boot [0x00#8, 0x10#8, 0#8, 0#8, 0x08#8] (Vector.replicate 32 0x77#32) false []).readReg 2#5 = 0x1000#32 ∧
    (State.boot [0x00#8, 0x10#8, 0#8, 0#8, 0x08#8] (Vector.replicate 32 0x77#32) false []).readReg 5#5 = 0x77#32 := by decide

/-- The next step after reset runs the word that `withFetchWord` placed. -/
theorem test_with_fetch_word : after (step (State.reset.withFetchWord 32 0xFFF00093)) (fun t => t.readReg 1#5) =
    some 0xFFFFFFFF#32 ∧ decodeTableWord 32 0xFFF00093 = some (.addi 1 0 0xFFF#12) := by decide

/-! ### Witnesses: for each statement with hypotheses, states and operands that meet them, one per clause -/

/-- The state a step answers. -/
def nextOf (s : State) : State := (after (step s) id).getD s

/-- The state an instruction answers. -/
def execOf (i : Instr) (s : State) : State := (after (exec i s) id).getD s

/-- A hart under enforcement with `x[6]` as given. -/
def enforced (x6 : Word) : State := { start [(6#5, x6)] with alignEnforce := true }

/-- `start []` with `pc` at the port and characters supplied. -/
def atPort (cs : List Byte) : State := { start [] with pc := 0xA0001000#32, input := cs }

theorem witness_DecodeEncodeRoundTrip : WellFormed (.bgeu 31 31 0x1000#13) = true ∧ WellFormed (.jal 31 0x100000#21) = true ∧
    WellFormed (.auipc 31 0xFFFFF000#32) = true ∧ WellFormed (.srai 0 31 31#5) = true := by decide

theorem witness_DecodedInstructionIsWellFormed : decode 0xFEDFF06F#32 = .ok (.jal 0 0x1FFFEC#21) := by decide

theorem witness_DecodeDropsOnlyIgnoredBits : decode 0x0000F067#32 = .ok (.jalr 0 1 0x000#12) ∧
    decode 0xFFFFFF8F#32 = .ok .fence ∧ decode 0xFFFFFFF3#32 = .ok .ecall ∧
    decode 0xFE029CE3#32 = .ok (.bne 5 0 0x1FF8#13) := by decide

theorem witness_EveryWord_opcode : (0xFFFFFFFF#32).toNat % 128 = 0x7F ∧
    0x7F ∉ [0x03, 0x0F, 0x13, 0x17, 0x23, 0x33, 0x37, 0x63, 0x67, 0x6F, 0x73] := by decide
theorem witness_EveryWord_funct3 : 0x0020B463#32 &&& 0x0000607F#32 = 0x00002063#32 ∧
    0x00033283#32 &&& 0x0000707F#32 = 0x00003003#32 ∧ 0x00036283#32 &&& 0x0000607F#32 = 0x00006003#32 ∧
    0x00533023#32 &&& 0x0000707F#32 = 0x00003023#32 ∧ 0x00537023#32 &&& 0x0000407F#32 = 0x00004023#32 := by decide
theorem witness_EveryWord_hi7 : 0x02131293#32 &&& 0x0000707F#32 = 0x00001013#32 ∧ (0x02131293#32).toNat / 2 ^ 25 = 1 ∧
    0xFE135293#32 &&& 0x0000707F#32 = 0x00005013#32 ∧ (0xFE135293#32).toNat / 2 ^ 25 = 0x7F := by decide
theorem witness_EveryWord_funct7 : 0xFE7302B3#32 &&& 0x0000007F#32 = 0x00000033#32 ∧ (0xFE7302B3#32).toNat / 2 ^ 25 = 0x7F ∧
    0x407312B3#32 &&& 0xFE00007F#32 = 0x40000033#32 ∧ (0x407312B3#32).toNat / 2 ^ 12 % 8 = 1 := by decide
theorem witness_EveryWord_executes : decode 0x407352B3#32 = .ok (.sra 5 6 7) := by decide

/-- Words that meet `OpcodeSelects`: JALR, FENCE, ECALL, LUI, AUIPC, JAL. -/
theorem witness_OpcodeSelects : (0x0000F067#32).toNat % 2 ^ 7 = 0x67 ∧ (0xFFFFFF8F#32).toNat % 2 ^ 7 = 0x0F ∧
    (0xFFFFFFF3#32).toNat % 2 ^ 7 = 0x73 ∧ (0xFFFFF2B7#32).toNat % 2 ^ 7 = 0x37 ∧ (0x80000297#32).toNat % 2 ^ 7 = 0x17 ∧
    (0x800000EF#32).toNat % 2 ^ 7 = 0x6F := by decide

/-- The two fields of a word that `Funct3Selects` names. -/
def selector3 (w : Word) : Nat × Nat := (w.toNat % 2 ^ 7, w.toNat / 2 ^ 12 % 2 ^ 3)

theorem witness_Funct3Selects_branch : selector3 0x00208463#32 = (0x63, 0) ∧ selector3 0x00209463#32 = (0x63, 1) ∧
    selector3 0x0020C463#32 = (0x63, 4) ∧ selector3 0x0020D463#32 = (0x63, 5) ∧ selector3 0x0020E463#32 = (0x63, 6) ∧
    selector3 0x0020F463#32 = (0x63, 7) := by decide
theorem witness_Funct3Selects_memory : selector3 0x00030283#32 = (0x03, 0) ∧ selector3 0x00031283#32 = (0x03, 1) ∧
    selector3 0x00032283#32 = (0x03, 2) ∧ selector3 0x00034283#32 = (0x03, 4) ∧ selector3 0x00035283#32 = (0x03, 5) ∧
    selector3 0x00530023#32 = (0x23, 0) ∧ selector3 0x00531023#32 = (0x23, 1) ∧ selector3 0x00532023#32 = (0x23, 2) := by
  decide
/-- ADDI words whose bits 31 to 25 are those of SUB, and all ones (R212). -/
theorem witness_no_subtract_immediate : selector3 0x40030293#32 = (0x13, 0) ∧ (0x40030293#32).toNat / 2 ^ 25 = 0x20 ∧
    selector3 0xFFF30293#32 = (0x13, 0) ∧ (0xFFF30293#32).toNat / 2 ^ 25 = 0x7F := by decide
theorem witness_Funct3Selects_arithImm : selector3 0xFFF30293#32 = (0x13, 0) ∧ selector3 0xFFF32293#32 = (0x13, 2) ∧
    selector3 0xFFF33293#32 = (0x13, 3) ∧ selector3 0xFFF34293#32 = (0x13, 4) ∧ selector3 0x0F036293#32 = (0x13, 6) ∧
    selector3 0x0FF37293#32 = (0x13, 7) := by decide

/-- The three fields of a word that `Funct7Selects` names. -/
def selector7 (w : Word) : Nat × Nat × Nat := (w.toNat % 2 ^ 7, w.toNat / 2 ^ 12 % 2 ^ 3, w.toNat / 2 ^ 25)

theorem witness_Funct7Selects_shifts : selector7 0x01F31293#32 = (0x13, 1, 0) ∧ selector7 0x01F35293#32 = (0x13, 5, 0) ∧
    selector7 0x41F35293#32 = (0x13, 5, 0x20) ∧ selector7 0x007312B3#32 = (0x33, 1, 0) ∧
    selector7 0x007352B3#32 = (0x33, 5, 0) ∧ selector7 0x407352B3#32 = (0x33, 5, 0x20) := by decide
theorem witness_Funct7Selects_arithReg : selector7 0x007302B3#32 = (0x33, 0, 0) ∧ selector7 0x407302B3#32 = (0x33, 0, 0x20) ∧
    selector7 0x007322B3#32 = (0x33, 2, 0) ∧ selector7 0x007332B3#32 = (0x33, 3, 0) ∧ selector7 0x007342B3#32 = (0x33, 4, 0) ∧
    selector7 0x007362B3#32 = (0x33, 6, 0) ∧ selector7 0x007372B3#32 = (0x33, 7, 0) := by decide

theorem witness_BitfieldIsShiftedRemainder : 0 ≤ 31 ∧ 31 ≤ 31 := by decide
theorem witness_SignExtensionSubtracts : 1 ≤ 1 ∧ 1 ≤ 32 ∧ 32 ≤ 32 := by decide

theorem witness_BootLeavesResetTable : ([0x00#8, 0x10#8, 0#8, 0#8, 0x08#8] : List Byte).length ≤ 2 ^ 32 ∧
    2 ^ 32 - 1 < 2 ^ 32 ∧ 31#5 ≠ 0#5 ∧ 31#5 ≠ 2#5 := by decide

theorem witness_StepKeepsInvariant : (State.reset.withFetchWord 32 0x80000137).inv = true ∧
    step (State.reset.withFetchWord 32 0x80000137) = .next (nextOf (State.reset.withFetchWord 32 0x80000137)) :=
  ⟨by decide, rfl⟩

theorem witness_MemWriteFollowsPseudocode : (startMem [] loadMem).mem.wf = true ∧ (enforced 0#32).alignEnforce = true ∧
    (0xFFFFFFFD#32).toNat % AccessWidth.word.bytes ≠ 0 ∧ (0xA0001000#32).toNat % AccessWidth.word.bytes = 0 ∧
    0xA0000FFF#32 ≠ 0xA0001000#32 := by decide

theorem witness_WriteThenRead : loadMem.wf = true ∧ (start []).accessAllowed 0xFFFFFFFF#32 4 ∧
    ¬ (enforced 0#32).accessAllowed 0xFFFFFFFF#32 4 ∧ (enforced 0#32).accessAllowed 0xFFFFFFFC#32 4 := by
  unfold State.accessAllowed; decide

theorem witness_LuiThenAddiBuildsConstant : 11#5 ≠ 0#5 ∧ (0x89ABCDEF#32).extractLsb' 0 12 = 0xDEF#12 := by decide

/-- `MemRead` answers from storage at the top of the address space, at each width, and from the port. -/
theorem witness_LoadsWriteWhatMemReadReturns :
    mod32 ((enforced 0#32).unsignedReg 6#5 + sextInt 0xFFC#12) = 0xFFFFFFFC#32 ∧
    (enforced 0#32).memRead 0xFFFFFFFC#32 .byte = .value 0#32 (enforced 0#32) ∧
    (enforced 0#32).memRead 0xFFFFFFFC#32 .half = .value 0#32 (enforced 0#32) ∧
    (enforced 0#32).memRead 0xFFFFFFFC#32 .word = .value 0#32 (enforced 0#32) ∧
    (portState [0x80#8]).memRead 0xA0001000#32 .word = .value 0x80#32 { portState [0x80#8] with inPos := 1 } :=
  ⟨by decide, rfl, rfl, rfl, rfl⟩

theorem witness_LoadsFromStorage : (enforced 0xFFFFFFFE#32).effectiveAddress 6#5 0#12 = 0xFFFFFFFE#32 ∧
    (enforced 0xFFFFFFFE#32).accessAllowed 0xFFFFFFFE#32 2 ∧
    (enforced 0x4#32).effectiveAddress 6#5 0xFF8#12 = 0xFFFFFFFC#32 ∧ (enforced 0x4#32).accessAllowed 0xFFFFFFFC#32 4 ∧
    (portState []).effectiveAddress 6#5 0xFFF#12 = 0xA0000FFF#32 ∧ (portState []).accessAllowed 0xA0000FFF#32 4 := by
  unfold State.accessAllowed; decide

theorem witness_LoadsFromPort : (portState [0x80#8]).effectiveAddress 6#5 0#12 = 0xA0001000#32 ∧
    (portState [0x80#8]).nextChar = some 0x80#8 := by decide

theorem witness_LoadFromEmptyPortHolds : (portState []).effectiveAddress 6#5 0#12 = 0xA0001000#32 ∧
    (portState []).nextChar = none := by decide

theorem witness_MisalignedDataAccess : (enforced 0#32).alignEnforce = true ∧
    ((enforced 0#32).effectiveAddress 6#5 0xFFF#12).toNat % 2 ≠ 0 ∧
    ((enforced 0#32).effectiveAddress 6#5 0xFFE#12).toNat % 4 ≠ 0 := by decide

theorem witness_StoresToStorage : (enforced 0xFFFFFFFE#32).mem.wf = true ∧
    (enforced 0xFFFFFFFE#32).effectiveAddress 6#5 0#12 ≠ 0xA0001000#32 ∧
    (enforced 0xFFFFFFFE#32).accessAllowed ((enforced 0xFFFFFFFE#32).effectiveAddress 6#5 0#12) 2 ∧
    (enforced 0xFFFFFFFE#32).accessAllowed ((enforced 0xFFFFFFFE#32).effectiveAddress 6#5 0xFFE#12) 4 ∧
    (portState []).accessAllowed ((portState []).effectiveAddress 6#5 0xFFF#12) 4 := by
  unfold State.accessAllowed; decide

theorem witness_StoresToPort : (portState []).effectiveAddress 6#5 0#12 = 0xA0001000#32 := by decide

theorem witness_StepRunsDecodedInstruction : ((enforced 0#32).placeWord 0x007302B3#32).canStep = true ∧
    ((enforced 0#32).placeWord 0x007302B3#32).pc ≠ 0xA0001000#32 ∧
    ((enforced 0#32).placeWord 0x007302B3#32).accessAllowed 0x100#32 4 ∧
    ((enforced 0#32).placeWord 0x007302B3#32).decodeAtPc = .ok (.add 5 6 7) := by
  unfold State.accessAllowed; decide

/-- A word that wraps at the top of the address space. -/
theorem witness_StepRuns_wraps : ({ start [] with pc := 0xFFFFFFFE#32 }.placeWord 0x00100093#32).decodeAtPc =
    .ok (.addi 1 0 0x001#12) := by decide

theorem witness_RejectedWordRecordsFault : (start []).canStep = true ∧ (start []).accessAllowed 0x100#32 4 ∧
    ((start []).placeWord 0x027302B3#32).decodeAtPc = .error (.invalidEncoding .funct7 1) ∧
    (start []).decodeAtPc = .error (.unimplementedOpcode 0#7) := by
  unfold State.accessAllowed; decide

theorem witness_MisalignedFetchRecordsFault : { enforced 0#32 with pc := 0xFFFFFFFD#32 }.canStep = true ∧
    (0xFFFFFFFD#32).toNat % 4 ≠ 0 := by decide

theorem witness_FetchFromPort : (atPort []).canStep = true ∧ (atPort []).nextChar = none ∧
    (atPort [0x13#8]).nextChar = some 0x13#8 ∧ decode (BitVec.ofNat 32 0x13) = .ok (.addi 0 0 0#12) ∧
    decode (BitVec.ofNat 32 0x41) = .error (.unimplementedOpcode 0x41#7) := by decide

theorem witness_StoppedHartHasNoStep : { start [] with fault := some (.unimplementedOpcode 0#7 0#32) }.fault =
      some (.unimplementedOpcode 0#7 0#32) ∧
    { start [] with run := .halted }.fault = none ∧ { start [] with run := .halted }.run = .halted := by decide

/-- The four outcomes: completing, halting, faulting and holding states all can step. -/
theorem witness_RunningStep : (start []).canStep = true ∧ ((start []).placeWord 0x00000013#32).canStep = true ∧
    ((start []).placeWord 0x00000073#32).canStep = true ∧ (atPort []).canStep = true ∧ (atPort [0x41#8]).canStep = true := by
  decide

theorem witness_FaultingStep : (start []).canStep = true ∧ step (start []) = .next (nextOf (start [])) ∧
    (nextOf (start [])).fault = some (.unimplementedOpcode 0#7 0x100#32) ∧
    (nextOf (atPort [0x41#8])).fault = some (.unimplementedOpcode 0x41#7 0xA0001000#32) ∧ (nextOf (atPort [0x41#8])).inPos = 1 :=
  ⟨by decide, rfl, by decide, by decide, by decide⟩

theorem witness_OnlyEcallWordsHalt : (start []).canStep = true ∧
    step ((start []).placeWord 0x00100073#32) = .next (nextOf ((start []).placeWord 0x00100073#32)) ∧
    (nextOf ((start []).placeWord 0x00100073#32)).run = .halted ∧
    (nextOf ((start []).placeWord 0x00000013#32)).run = .running := ⟨by decide, rfl, by decide, by decide⟩

theorem witness_ConfigurationIsConstant : step (enforced 0#32) = .next (nextOf (enforced 0#32)) := rfl

theorem witness_PortHistories : step (atPort [0x13#8]) = .next (nextOf (atPort [0x13#8])) ∧
    (nextOf (atPort [0x13#8])).inPos = 1 := ⟨rfl, by decide⟩

theorem witness_WaitingCharacters : step (atPort [0x13#8]) = .next (nextOf (atPort [0x13#8])) ∧
    nextOf (atPort [0x13#8]) ≠ atPort [0x13#8] := ⟨rfl, by decide⟩

/-- A fetch holds. -/
theorem witness_SupplyLiftsHold : { State.reset with pc := 0xA0001000#32 }.inv = true ∧
    step { State.reset with pc := 0xA0001000#32 } = .next { State.reset with pc := 0xA0001000#32 } := ⟨by decide, rfl⟩

/-- A data load holds too. -/
theorem witness_SupplyLiftsHold_load : ((portState []).placeWord 0x00034283#32).inv = true ∧
    step ((portState []).placeWord 0x00034283#32) = .next ((portState []).placeWord 0x00034283#32) := ⟨by decide, rfl⟩

/-- A register instruction, a store, a port load, ECALL and a fault. -/
theorem witness_FrameTable : exec (.add 2 6 7) (start []) = .next (execOf (.add 2 6 7) (start [])) ∧
    exec (.sw 6 5 0xFFF#12) (start []) = .next (execOf (.sw 6 5 0xFFF#12) (start [])) ∧
    storeOperands (.sw 6 5 0xFFF#12) = some (6#5, 0xFFF#12, 4) ∧
    exec (.lbu 5 6 0#12) (portState [0x41#8]) = .next (execOf (.lbu 5 6 0#12) (portState [0x41#8])) ∧
    exec .ecall (start []) = .next (execOf .ecall (start [])) ∧
    (execOf (.lw 5 6 1#12) (enforced 0#32)).fault = some (.unalignedAccess 1#32 .word) :=
  ⟨rfl, rfl, by decide, rfl, rfl, by decide⟩

/-- A hart that stores `00500093` (ADDI x1, x0, 5) at the next instruction's address (95, program P7). -/
def selfModifying : State := start [(5#5, 0x00500093#32), (6#5, 0x104#32)]

theorem witness_StoredWordIsExecutedNext : selfModifying.canStep = true ∧ selfModifying.mem.wf = true ∧
    selfModifying.effectiveAddress 6#5 0#12 = selfModifying.pc + 4#32 ∧ selfModifying.pc + 4#32 ≠ 0xA0001000#32 ∧
    selfModifying.accessAllowed (selfModifying.pc + 4#32) 4 ∧ decode (selfModifying.readReg 5#5) = .ok (.addi 1 0 5#12) ∧
    exec (.sw 6 5 0#12) selfModifying = .next (execOf (.sw 6 5 0#12) selfModifying) :=
  ⟨by decide, by decide, by decide, by decide, by unfold State.accessAllowed; decide, by decide, rfl⟩

end Sys2Proof.Tests
end

section
/-! Proofs of the statements of 00_scope: bit fields (R11), sign extension (R12) and the four outcomes of a step (R10). -/

namespace Sys2Proof

/-! ### Bit fields (R11) -/

/-- The bit field as a number, for any bounds. -/
theorem toNat_extractBitfield (w : Word) (msb lsb : Nat) :
    (extractBitfield w msb lsb).toNat = w.toNat / 2 ^ lsb % 2 ^ (msb - lsb + 1) := by
  rw [extractBitfield, BitVec.extractLsb_toNat, Nat.shiftRight_eq_div_pow]

/-- Settles O7: extracting is shifting and reducing, and the shift is a division. -/
theorem bitfieldIsShiftedRemainder : Obligations.BitfieldIsShiftedRemainder :=
  fun w msb lsb _ _ => toNat_extractBitfield w msb lsb

end Sys2Proof

namespace Sys2Proof.Machine

/-! ### Sign extension (R12) -/

/-- Sign extension by two shifts, compared bit by bit: below `n` both sides have the bit of `v`, from `n` on its top bit. -/
theorem sext_eq_sshiftRight_shiftLeft {n : Nat} (v : BitVec n) (h1 : 1 ≤ n) (h32 : n ≤ 32) :
    sext v = ((v.setWidth 32) <<< (32 - n)).sshiftRight (32 - n) := by
  apply BitVec.eq_of_getLsbD_eq
  intro i hi
  rw [sext, BitVec.getLsbD_signExtend, BitVec.getLsbD_sshiftRight]
  by_cases hin : i < n
  · have hback : 32 - n + i - (32 - n) = i := by omega
    have hlow : 32 - n + i < 32 := by omega
    simp [hi, hin, hlow, hback]
  · have htop : 31 - (32 - n) = n - 1 := by omega
    have hhigh : ¬ 32 - n + i < 32 := by omega
    have hsign : ¬ 31 < 32 - n := by omega
    simp [hi, hin, hhigh, hsign, htop, BitVec.msb_eq_getLsbD_last]

/-- Settles O9: the subtraction form is `sext_eq_mod32`, the shift form holds bit by bit. -/
theorem signExtensionSubtracts : Obligations.SignExtensionSubtracts :=
  fun _ v h1 h32 => ⟨sext_eq_mod32 h1 v, sext_eq_sshiftRight_shiftLeft v h1 h32⟩

/-! ### The four outcomes of a step (R10) -/

/-- The port address is a multiple of 4, so a fetch there passes the alignment test. -/
theorem State.alignmentFails_ioPortAddr_word (s : State) : s.alignmentFails Config.ioPortAddr .word = false :=
  State.alignmentFails_eq_false s _ _ fun _ => rfl

/-- A fetch that holds is at the port with no character available. -/
theorem State.fetch_hold {s : State} (h : s.fetch = .hold) : s.pc = Config.ioPortAddr ∧ s.nextChar = none := by
  rcases s.fetch_cases with ⟨_, hv⟩ | ⟨hp, hc, _⟩ | ⟨c, _, _, hv⟩ | ⟨_, _, hv⟩
  · simp [hv] at h
  · exact ⟨hp, hc⟩
  · simp [hv] at h
  · simp [hv] at h

/-- A fetch that fails its alignment test is not at the port. -/
theorem State.pc_ne_ioPortAddr_of_fetch_fault {s : State} {f : Fault} (h : s.fetch = .fault f) :
    s.pc ≠ Config.ioPortAddr := by
  intro hp
  rcases s.fetch_cases with ⟨hf, _⟩ | ⟨_, _, hv⟩ | ⟨c, _, _, hv⟩ | ⟨_, _, hv⟩
  · rw [hp, State.alignmentFails_ioPortAddr_word] at hf; cases hf
  · simp [hv] at h
  · simp [hv] at h
  · simp [hv] at h

/-- A fetched word is the next character of the port, which is consumed, or comes from storage and changes nothing. -/
theorem State.fetch_value {s s' : State} {w : Word} (h : s.fetch = .value w s') :
    (∃ c, s.pc = Config.ioPortAddr ∧ s.nextChar = some c ∧ w = c.setWidth 32 ∧
      s' = { s with inPos := s.inPos + 1 }) ∨
    (s.pc ≠ Config.ioPortAddr ∧ w = s.mem.readValue s.pc .word ∧ s' = s) := by
  rcases s.fetch_cases with ⟨_, hv⟩ | ⟨_, _, hv⟩ | ⟨c, hp, hc, hv⟩ | ⟨_, hp, hv⟩
  · simp [hv] at h
  · simp [hv] at h
  · rw [hv] at h; cases h; exact .inl ⟨c, hp, hc, rfl, rfl⟩
  · rw [hv] at h; cases h; exact .inr ⟨hp, rfl, rfl⟩

/-- What a faulting step leaves (60_exceptions R286): the record, and the character a fetch from the port took. -/
def State.faulted (s : State) (f : Fault) : State :=
  { s with fault := some f, inPos := if s.pc = Config.ioPortAddr then s.inPos + 1 else s.inPos }

/-- Away from the port a faulting step leaves what `raise` does. -/
theorem State.faulted_of_pc_ne {s : State} (f : Fault) (hp : s.pc ≠ Config.ioPortAddr) : s.faulted f = s.raise f := by
  simp [State.faulted, State.raise, hp]

/-- At the port the character is consumed too. -/
theorem State.faulted_of_pc_eq {s : State} (f : Fault) (hp : s.pc = Config.ioPortAddr) :
    s.faulted f = { s with inPos := s.inPos + 1 }.raise f := by
  simp [State.faulted, State.raise, hp]

/-- The error of a fetched word that is no instruction. -/
theorem State.raise_of_fetch_value {s s' : State} {w : Word} (h : s.fetch = .value w s') (f : Fault) :
    s'.raise f = s.faulted f := by
  rcases State.fetch_value h with ⟨c, hp, _, _, rfl⟩ | ⟨hp, _, rfl⟩
  · exact (State.faulted_of_pc_eq f hp).symm
  · exact (State.faulted_of_pc_ne f hp).symm

/-- An instruction fetched from where `s` stands completes, or it came from storage, and then it records an error or waits
for a character. -/
theorem exec_fetched_ends {s s' t : State} {w : Word} {i : Instr} (hw : s.fetch = .value w s') (hd : decode w = .ok i)
    (h : exec i s' = .next t) :
    Completed i s' t ∨ (∃ f, t = s.faulted f) ∨ (t = s ∧ s.nextChar = none) := by
  rcases State.fetch_value hw with ⟨c, _, _, rfl, rfl⟩ | ⟨hp, _, rfl⟩
  · exact .inl (exec_port_word hd h)
  · rcases exec_ends h with hdone | ⟨f, ht, _⟩ | ⟨ht, hc, _⟩
    · exact .inl hdone
    · exact .inr (.inl ⟨f, ht.trans (State.faulted_of_pc_ne f hp).symm⟩)
    · exact .inr (.inr ⟨ht, hc⟩)

/-- A fetch touches neither the fault record nor `run` nor `cycles`. -/
theorem State.fetch_value_record {s s' : State} {w : Word} (h : s.fetch = .value w s') :
    s'.fault = s.fault ∧ s'.run = s.run ∧ s'.cycles = s.cycles := by
  rcases State.fetch_value h with ⟨c, _, _, _, rfl⟩ | ⟨_, _, rfl⟩ <;> exact ⟨rfl, rfl, rfl⟩

/-- How a step ends (R10): the fetched instruction completes, and halts the hart exactly when it is ECALL; or an error is
recorded; or the hart holds. -/
theorem step_ends {s t : State} (h : step s = .next t) :
    (∃ w s' i, s.fetch = .value w s' ∧ decode w = .ok i ∧
      t.fault = none ∧ t.run = (if i = .ecall then .halted else .running) ∧ t.cycles = s.cycles + 1) ∨
    (∃ f, t = s.faulted f) ∨ (t = s ∧ s.nextChar = none) := by
  obtain ⟨hfault, hrun, hstep⟩ := step_cases h
  rcases hstep with ⟨hw, ht⟩ | ⟨f, hw, ht⟩ | ⟨w, s', r, hw, _, ht⟩ | ⟨w, s', i, hw, hd, hex⟩
  · exact .inr (.inr ⟨ht, (State.fetch_hold hw).2⟩)
  · have hp := State.pc_ne_ioPortAddr_of_fetch_fault hw
    exact .inr (.inl ⟨f, ht.trans (State.faulted_of_pc_ne f hp).symm⟩)
  · exact .inr (.inl ⟨rejectFault s.pc r, ht.trans (State.raise_of_fetch_value hw _)⟩)
  · rcases exec_fetched_ends hw hd hex with ⟨hf, hr, hc⟩ | hfaulted | hheld
    · obtain ⟨hf', hr', hc'⟩ := State.fetch_value_record hw
      exact .inl ⟨w, s', i, hw, hd, by rw [hf, hf', hfault], by rw [hr, hr', hrun], by rw [hc, hc']⟩
    · exact .inr (.inl hfaulted)
    · exact .inr (.inr hheld)

/-- A fetched word executes or is rejected, and both answer a next state. -/
theorem executeWord_answers_next (p w : Word) (s : State) : ∃ t, executeWord p w s = .next t := by
  unfold executeWord
  cases decode w with
  | ok i => exact exec_answers_next i s
  | error r => exact ⟨_, rfl⟩

/-- A hart that can step has a next state. -/
theorem step_answers_next {s : State} (hs : s.canStep = true) : ∃ t, step s = .next t := by
  obtain ⟨hrun, hfault⟩ : s.run = .running ∧ s.fault = none := by simpa [State.canStep] using hs
  have hstep : step s = runningStep s := by simp [step, engineStep, hrun, hfault]
  rw [hstep, runningStep]
  cases s.fetch with
  | value w s' => exact executeWord_answers_next s.pc w s'
  | fault f => exact ⟨_, rfl⟩
  | hold => exact ⟨s, rfl⟩

/-- Settles O45: a hart that can step answers a next state (`step_answers_next`), and `step_ends` says how. -/
theorem runningStepHasOneOfFourOutcomes : Obligations.RunningStepHasOneOfFourOutcomes := by
  intro s hs
  obtain ⟨t, ht⟩ := step_answers_next hs
  refine ⟨t, ht, ?_⟩
  rcases step_ends ht with ⟨_, _, i, _, _, hf, hr, hc⟩ | ⟨f, rfl⟩ | hheld
  · by_cases hi : i = .ecall
    · exact .inr (.inl ⟨hf, by rw [hr, if_pos hi], hc⟩)
    · exact .inl ⟨hf, by rw [hr, if_neg hi], hc⟩
  · exact .inr (.inr (.inl ⟨f, rfl⟩))
  · exact .inr (.inr (.inr hheld))

end Sys2Proof.Machine
end

section
/-! Proofs of the statements of 10_state: register writes (R22, R24), the frame table (R37), reset and the invariant (R25,
R36), and the hart that has stopped (R33). -/

namespace Sys2Proof.Machine

/-! ### Register writes (R22, R24) -/

/-- A new maximum is a set watermark at or above the value written. -/
theorem raiseMax_bounds (old : Option Word) (v : Word) : ∃ hi, raiseMax old v = some hi ∧ v ≤ hi := by
  cases old with
  | none => exact ⟨v, rfl, BitVec.le_refl v⟩
  | some m =>
    by_cases hlt : m < v
    · exact ⟨v, by simp [raiseMax, hlt], BitVec.le_refl v⟩
    · exact ⟨m, by simp [raiseMax, hlt], BitVec.not_lt.mp hlt⟩

/-- A new minimum is a set watermark at or below the value written. -/
theorem lowerMin_bounds (old : Option Word) (v : Word) : ∃ lo, lowerMin old v = some lo ∧ lo ≤ v := by
  cases old with
  | none => exact ⟨v, rfl, BitVec.le_refl v⟩
  | some m =>
    by_cases hlt : v < m
    · exact ⟨v, by simp [lowerMin, hlt], BitVec.le_refl v⟩
    · exact ⟨m, by simp [lowerMin, hlt], BitVec.not_lt.mp hlt⟩

/-- A set maximum, compared as numbers. -/
theorem raiseMax_some (m v : Word) : raiseMax (some m) v = some (if m.toNat < v.toNat then v else m) := by
  by_cases hlt : m.toNat < v.toNat <;> simp [raiseMax, BitVec.lt_def, hlt]

/-- A set minimum, compared as numbers. -/
theorem lowerMin_some (m v : Word) : lowerMin (some m) v = some (if v.toNat < m.toNat then v else m) := by
  by_cases hlt : v.toNat < m.toNat <;> simp [lowerMin, BitVec.lt_def, hlt]

theorem State.writeReg_spMax_of_ne (s : State) {r : RegIdx} (v : Word) (hr : r ≠ 2#5) :
    (s.writeReg r v).spMax = s.spMax := by rw [State.writeReg_spMax, if_neg hr]

theorem State.writeReg_spMin_of_ne (s : State) {r : RegIdx} (v : Word) (hr : r ≠ 2#5) :
    (s.writeReg r v).spMin = s.spMin := by rw [State.writeReg_spMin, if_neg hr]

/-- A register write in the words of the statements. -/
theorem State.writeReg_writesRegister (s : State) (r : RegIdx) (v : Word) : WritesRegister s (s.writeReg r v) r v := by
  refine ⟨fun q => s.readReg_writeReg r q v, fun hr => ⟨s.writeReg_spMax_of_ne v hr, s.writeReg_spMin_of_ne v hr⟩, ?_⟩
  rintro rfl
  rw [State.writeReg_spMax, State.writeReg_spMin, if_pos rfl, if_pos rfl]
  refine ⟨fun hmax => ?_, fun m hmax => ?_, fun hmin => ?_, fun m hmin => ?_⟩
  · rw [hmax, raiseMax]
  · rw [hmax, raiseMax_some]
  · rw [hmin, lowerMin]
  · rw [hmin, lowerMin_some]

/-- Settles O15: the registers and the watermarks are `writeReg_writesRegister`; no other field is touched. -/
theorem registerWriteFollowsRules : Obligations.RegisterWriteFollowsRules := by
  intro s r v
  refine ⟨s.writeReg_writesRegister r v, ?_⟩
  simp [SameRecord, SameCells, SamePort]

/-! ### What an instruction does -/

@[simp] theorem State.readReg_setInPos (s : State) (n : Nat) (q : RegIdx) :
    { s with inPos := n }.readReg q = s.readReg q := rfl

@[simp] theorem State.readReg_setMem (s : State) (m : Memory) (q : RegIdx) :
    { s with mem := m }.readReg q = s.readReg q := rfl

/-- What `exec i s` can leave, tied to what the frame table says of `i`: which register it may write, whether it is a Load,
and which cells a Store covers. Loads and stores are split by what `MemRead` and `MemWrite` did; a load from storage is a
`finish`. -/
inductive Effect (i : Instr) (s : State) : State → Prop
  | finish {rd v} (hd : destination i = some rd) : Effect i s (s.finish rd v)
  | jump {rd target} (hd : destination i = some rd) : Effect i s (s.jumpAndLink rd target)
  | branch {c imm} : Effect i s (s.branch c imm)
  | portLoad {rd v} (hd : destination i = some rd) (hl : isLoad i = true) (hc : s.inPos < s.input.length) :
      Effect i s ({ s with inPos := s.inPos + 1 }.finish rd v)
  | portStore {v op} (hs : storeOperands i = some op) : Effect i s ((s.portWrite v).retire .fallThrough)
  | store {n rs1 imm v} (hs : storeOperands i = some (rs1, imm, n.bytes)) :
      Effect i s ({ s with mem := s.mem.writeValue (s.effectiveAddress rs1 imm) n v }.retire .fallThrough)
  | fallThrough : Effect i s (s.retire .fallThrough)
  | halt (hi : i = .ecall) : Effect i s (s.retire .halt)
  | fault {f} : Effect i s (s.raise f)
  | hold : Effect i s s

/-- The effect of the five loads. -/
theorem State.load_effect {i : Instr} {s : State} {n e rd rs1 imm} (hd : destination i = some rd)
    (hl : isLoad i = true) : Effect i s (s.load n e rd rs1 imm) := by
  rcases s.load_cases n e rd rs1 imm with ⟨_, h⟩ | ⟨_, _, _, h⟩ | ⟨c, _, _, hc, h⟩ | ⟨_, _, h⟩ <;> rw [h]
  · exact .fault
  · exact .hold
  · exact .portLoad hd hl (List.getElem?_eq_some_iff.mp hc).1
  · exact .finish hd

/-- The effect of the three stores. -/
theorem State.store_effect {i : Instr} {s : State} {n rs1 rs2 imm}
    (hs : storeOperands i = some (rs1, imm, n.bytes)) : Effect i s (s.store n rs1 rs2 imm) := by
  rcases s.store_cases n rs1 rs2 imm with ⟨_, h⟩ | ⟨_, _, h⟩ | ⟨_, _, h⟩ <;> rw [h]
  · exact .fault
  · exact .portStore hs
  · exact .store hs

theorem Effect.of_next {i : Instr} {s t u : State} (hu : Effect i s u)
    (h : (.next u : Host.Outcome State Fault Refusal) = .next t) : Effect i s t := by
  cases h; exact hu

/-- Every instruction has one of these effects. -/
theorem exec_effect {i : Instr} {s t : State} (h : exec i s = .next t) : Effect i s t := by
  cases i
  case jal | jalr => exact Effect.of_next (.jump rfl) h
  case beq | bne | blt | bge | bltu | bgeu => exact Effect.of_next .branch h
  case lb | lh | lw | lbu | lhu => exact Effect.of_next (State.load_effect rfl rfl) h
  case sb | sh | sw => exact Effect.of_next (State.store_effect rfl) h
  case fence => exact Effect.of_next .fallThrough h
  case ecall => exact Effect.of_next (.halt rfl) h
  all_goals exact Effect.of_next (.finish rfl) h

/-! ### The frame table (R37) -/

/-- A register is changed only by an instruction whose destination it is. -/
theorem Effect.readReg_eq {i : Instr} {s t : State} (h : Effect i s t) {r : RegIdx} (hr : destination i ≠ some r) :
    t.readReg r = s.readReg r := by
  cases h with
  | @finish rd v hd | @jump rd v hd | @portLoad rd v hd hl hc =>
    have hne : r ≠ rd := fun he => hr (he ▸ hd)
    simp [State.readReg_finish, State.readReg_jumpAndLink, hne]
  | _ => simp

/-- The watermarks are changed only by an instruction whose destination is register 2. -/
theorem Effect.watermarks_eq {i : Instr} {s t : State} (h : Effect i s t) (h2 : destination i ≠ some 2#5) :
    t.spMax = s.spMax ∧ t.spMin = s.spMin := by
  cases h with
  | @finish rd v hd | @jump rd v hd | @portLoad rd v hd hl hc =>
    have hne : rd ≠ 2#5 := fun he => h2 (he ▸ hd)
    simp [State.writeReg_spMax_of_ne, State.writeReg_spMin_of_ne, hne]
  | _ => simp

/-- Memory and the emitted bytes are changed only by a Store. -/
theorem Effect.mem_out_eq {i : Instr} {s t : State} (h : Effect i s t) (hn : storeOperands i = none) :
    t.mem = s.mem ∧ t.out = s.out := by
  cases h with
  | portStore hs | store hs => rw [hn] at hs; cases hs
  | _ => simp

/-- A Store changes no cell but those from its effective address for its width. -/
theorem Effect.read_eq {i : Instr} {s t : State} (h : Effect i s t) {rs1 : RegIdx} {imm : BitVec 12} {n a : Nat}
    (hi : storeOperands i = some (rs1, imm, n))
    (ha : ∀ k < n, a ≠ ((s.effectiveAddress rs1 imm).toNat + k) % 2 ^ 32) : t.mem.read a = s.mem.read a := by
  cases h with
  | store hs =>
    rw [hi] at hs
    cases hs
    exact Memory.read_writeValue_ne _ _ _ _ _ fun k hk => byteAddr_eq _ k ▸ ha k hk
  | _ => simp

/-- Only a Load consumes a character. -/
theorem Effect.inPos_eq {i : Instr} {s t : State} (h : Effect i s t) (hl : isLoad i = false) : t.inPos = s.inPos := by
  cases h with
  | portLoad _ hl' _ => rw [hl] at hl'; cases hl'
  | _ => simp

/-- Only ECALL changes `run`. -/
theorem Effect.run_eq {i : Instr} {s t : State} (h : Effect i s t) (hi : i ≠ .ecall) : t.run = s.run := by
  cases h with
  | halt he => exact absurd he hi
  | _ => simp

/-- No instruction changes what the host has supplied or the alignment setting. -/
theorem Effect.config_eq {i : Instr} {s t : State} (h : Effect i s t) :
    t.input = s.input ∧ t.alignEnforce = s.alignEnforce := by
  cases h <;> simp

/-- An instruction that changes the fault record changes nothing else (60_exceptions R286). -/
theorem Effect.eq_raise {i : Instr} {s t : State} (h : Effect i s t) (hf : t.fault ≠ s.fault) :
    ∃ f, t = s.raise f := by
  cases h with
  | @fault f => exact ⟨f, rfl⟩
  | _ => simp at hf

/-- Settles O52: each entry of the table, read off the effect of the instruction (`exec_effect`). -/
theorem frameTableHolds : Obligations.FrameTableHolds := by
  intro i s t h
  have he := exec_effect h
  refine ⟨fun r hr => he.readReg_eq hr, he.watermarks_eq, fun hn => ?_, fun rs1 imm n hi a ha => he.read_eq hi ha,
    he.inPos_eq, he.run_eq, he.config_eq.1, he.config_eq.2, he.eq_raise⟩
  obtain ⟨hmem, hout⟩ := he.mem_out_eq hn
  exact ⟨fun a => by rw [hmem], hout⟩

/-! ### The invariant (R25) -/

/-- The four parts of the invariant. -/
theorem State.inv_iff (s : State) : s.inv = true ↔
    s.mem.wf = true ∧ s.watermarksBracket = true ∧ s.inPos ≤ s.input.length ∧ (s.fault = none ∨ s.run = .running) := by
  simp [State.inv, and_assoc]

/-- The bracket depends on `x[2]` and the watermarks alone. -/
theorem State.watermarksBracket_congr {s t : State} (hreg : t.readReg 2#5 = s.readReg 2#5) (hmax : t.spMax = s.spMax)
    (hmin : t.spMin = s.spMin) : t.watermarksBracket = s.watermarksBracket := by
  simp only [State.watermarksBracket, hreg, hmax, hmin]

/-- A write of `x[2]` sets the watermarks around it, whatever they were before. -/
theorem State.watermarksBracket_writeReg_two (s : State) (v : Word) : (s.writeReg 2#5 v).watermarksBracket = true := by
  obtain ⟨hi, hmax, hle⟩ := raiseMax_bounds s.spMax v
  obtain ⟨lo, hmin, hge⟩ := lowerMin_bounds s.spMin v
  simp [State.watermarksBracket, State.writeReg_spMax, State.writeReg_spMin, State.readReg_writeReg, hmax, hmin, hle, hge]

theorem State.watermarksBracket_writeReg {s : State} (h : s.watermarksBracket = true) (r : RegIdx) (v : Word) :
    (s.writeReg r v).watermarksBracket = true := by
  by_cases hr : r = 2#5
  · subst hr; exact s.watermarksBracket_writeReg_two v
  · have hreg : (s.writeReg r v).readReg 2#5 = s.readReg 2#5 := by simp [State.readReg_writeReg, Ne.symm hr]
    rw [State.watermarksBracket_congr hreg (s.writeReg_spMax_of_ne v hr) (s.writeReg_spMin_of_ne v hr), h]

theorem State.inv_writeReg {s : State} (h : s.inv = true) (r : RegIdx) (v : Word) : (s.writeReg r v).inv = true := by
  rw [State.inv_iff] at h ⊢
  obtain ⟨hmem, hsp, hpos, hrec⟩ := h
  exact ⟨by simpa, State.watermarksBracket_writeReg hsp r v, by simpa, by simpa⟩

/-- The engine's update keeps the invariant when no fault is recorded. -/
theorem State.inv_retire {s : State} (h : s.inv = true) (hf : s.fault = none) (a : Answer) : (s.retire a).inv = true := by
  rw [State.inv_iff] at h ⊢
  obtain ⟨hmem, hsp, hpos, _⟩ := h
  have hsp' : (s.retire a).watermarksBracket = s.watermarksBracket :=
    State.watermarksBracket_congr (by simp) (by simp) (by simp)
  exact ⟨by simpa, hsp'.trans hsp, by simpa, .inl (by simpa)⟩

theorem State.inv_finish {s : State} (h : s.inv = true) (hf : s.fault = none) (r : RegIdx) (v : Word) :
    (s.finish r v).inv = true :=
  State.inv_retire (State.inv_writeReg h r v) (by simpa) .fallThrough

theorem State.inv_jumpAndLink {s : State} (h : s.inv = true) (hf : s.fault = none) (r : RegIdx) (target : Word) :
    (s.jumpAndLink r target).inv = true :=
  State.inv_retire (State.inv_writeReg h r s.nextPc) (by simpa) (.newPc target)

/-- Recording an error keeps the invariant of a RUNNING hart. -/
theorem State.inv_raise {s : State} (h : s.inv = true) (hr : s.run = .running) (f : Fault) : (s.raise f).inv = true := by
  rw [State.inv_iff] at h ⊢
  obtain ⟨hmem, hsp, hpos, _⟩ := h
  exact ⟨hmem, hsp, hpos, .inr hr⟩

/-- The emitted bytes do not enter the invariant. -/
theorem State.inv_portWrite (s : State) (v : Word) : (s.portWrite v).inv = s.inv := rfl

/-- Consuming a character that is supplied keeps the invariant. -/
theorem State.inv_consume {s : State} (h : s.inv = true) (hc : s.inPos < s.input.length) :
    { s with inPos := s.inPos + 1 }.inv = true := by
  rw [State.inv_iff] at h ⊢
  obtain ⟨hmem, hsp, _, hrec⟩ := h
  exact ⟨hmem, hsp, hc, hrec⟩

/-- So does any change of memory that keeps its canonical form. -/
theorem State.inv_setMem {s : State} (h : s.inv = true) {m : Memory} (hm : m.wf = true) :
    { s with mem := m }.inv = true := by
  rw [State.inv_iff] at h ⊢
  obtain ⟨_, hsp, hpos, hrec⟩ := h
  exact ⟨hm, hsp, hpos, hrec⟩

theorem State.wf_of_inv {s : State} (h : s.inv = true) : s.mem.wf = true := ((State.inv_iff s).mp h).1

/-- Every effect keeps the invariant of a hart that can step. -/
theorem Effect.keeps_inv {i : Instr} {s t : State} (h : Effect i s t) (hs : s.inv = true) (hf : s.fault = none)
    (hr : s.run = .running) : t.inv = true := by
  cases h with
  | @finish rd v => exact State.inv_finish hs hf rd v
  | @jump rd target => exact State.inv_jumpAndLink hs hf rd target
  | branch => exact State.inv_retire hs hf _
  | @portLoad rd v _ _ hc => exact State.inv_finish (State.inv_consume hs hc) hf rd v
  | @portStore v => exact State.inv_retire ((s.inv_portWrite v).trans hs) hf .fallThrough
  | @store n rs1 imm v =>
    have hm := Memory.wf_writeValue (s.effectiveAddress rs1 imm) n v (State.wf_of_inv hs)
    exact State.inv_retire (State.inv_setMem hs hm) hf .fallThrough
  | fallThrough => exact State.inv_retire hs hf .fallThrough
  | halt => exact State.inv_retire hs hf .halt
  | @fault f => exact State.inv_raise hs hr f
  | hold => exact hs

/-- A fetch keeps the invariant. -/
theorem State.fetch_keeps_inv {s s' : State} {w : Word} (hs : s.inv = true) (hw : s.fetch = .value w s') :
    s'.inv = true := by
  rcases State.fetch_value hw with ⟨c, _, hc, _, rfl⟩ | ⟨_, _, rfl⟩
  · exact State.inv_consume hs (List.getElem?_eq_some_iff.mp hc).1
  · exact hs

/-- Settles O14: the fetch keeps the invariant, and so does what follows it, the record of an error or the effect of the
decoded instruction. -/
theorem stepKeepsInvariant : Obligations.StepKeepsInvariant := by
  intro s t hs h
  obtain ⟨hf, hr, hstep⟩ := step_cases h
  rcases hstep with ⟨_, rfl⟩ | ⟨f, _, rfl⟩ | ⟨w, s', r, hw, _, rfl⟩ | ⟨w, s', i, hw, _, hex⟩
  · exact hs
  · exact State.inv_raise hs hr f
  all_goals obtain ⟨hf', hr', _⟩ := State.fetch_value_record hw
  · exact State.inv_raise (State.fetch_keeps_inv hs hw) (hr'.trans hr) _
  · exact (exec_effect hex).keeps_inv (State.fetch_keeps_inv hs hw) (hf'.trans hf) (hr'.trans hr)

/-! ### Reset (R36) -/

/-- Settles O13: the loaded store is canonical, and the write of `x[2]` sets both watermarks around it. -/
theorem invariantHoldsAfterAnyBoot : Obligations.InvariantHoldsAfterAnyBoot := by
  intro image initRegs enforce input
  refine ⟨(State.inv_iff _).mpr ⟨?_, State.watermarksBracket_writeReg_two _ _, ?_, ?_⟩, ?_, ?_⟩
  · rw [State.boot, State.writeReg_mem]
    exact Memory.wf_load rfl image Config.imageBase
  all_goals simp [State.boot, State.beforeSp]

/-- Settles O11: of the empty image both words of the reset sequence are 0, and 0 is what `x[2]` is replaced by. -/
theorem resetIsBootOfEmptyImage : Obligations.ResetIsBootOfEmptyImage := by
  unfold Obligations.ResetIsBootOfEmptyImage
  decide

/-- Settles O12: `State.reset` is a boot, and the invariant holds after any. -/
theorem invariantHoldsAtReset : Obligations.InvariantHoldsAtReset := by
  obtain ⟨hinv, _, _⟩ := invariantHoldsAfterAnyBoot [] (Vector.replicate 32 0#32) false []
  rwa [← resetIsBootOfEmptyImage] at hinv

/-! ### A hart that has stopped (R33) -/

/-- Settles O44: the engine looks at the record first, then at `run`. -/
theorem stoppedHartHasNoStep : Obligations.StoppedHartHasNoStep := by
  intro s
  refine ⟨fun f hf => ?_, fun hf hr => ?_⟩
  · rw [step, engineStep, hf]
  · rw [step, engineStep, hf, hr]

end Sys2Proof.Machine
end

section
/-! Proofs of the statements of 20_memory: the effective address (R51), `MemRead` and `MemWrite` (R55 to R57), misaligned
accesses (R59), the port (R64 to R68) and the coherence of fetch with stores (R75). -/

namespace Sys2Proof.Machine

/-! ### The alignment test (R59) -/

/-- The alignment test in the words of the statements. -/
theorem State.accessAllowed_iff (s : State) (a : Word) (n : AccessWidth) :
    s.accessAllowed a n.bytes ↔ s.alignmentFails a n = false := by
  rw [Bool.eq_false_iff, ne_eq, State.alignmentFails_iff, State.accessAllowed]
  tauto

/-- The alignment test depends on the alignment setting alone. -/
theorem State.alignmentFails_congr {s t : State} (h : t.alignEnforce = s.alignEnforce) (a : Word) (n : AccessWidth) :
    t.alignmentFails a n = s.alignmentFails a n := by
  rw [State.alignmentFails, State.alignmentFails, h]

/-- The port address, as the statements write it. -/
theorem portLiteral_eq : (0xA0001000#32 : Word) = Config.ioPortAddr := rfl

/-- The port address is a multiple of every width. -/
theorem State.alignmentFails_ioPortAddr (s : State) (n : AccessWidth) : s.alignmentFails Config.ioPortAddr n = false :=
  State.alignmentFails_eq_false s _ n fun _ => by cases n <;> rfl

/-! ### `MemRead` and `MemWrite`, one equation per case (R55, R56) -/

theorem State.memRead_of_alignmentFails {s : State} {a : Word} {n : AccessWidth} (hf : s.alignmentFails a n = true) :
    s.memRead a n = .fault (.unalignedAccess a n) := by
  rw [State.memRead, if_pos hf]

theorem State.memRead_port (s : State) (n : AccessWidth) : s.memRead Config.ioPortAddr n = s.portRead := by
  simp [State.memRead, State.alignmentFails_ioPortAddr]

theorem State.portRead_of_nextChar {s : State} {c : Byte} (hc : s.nextChar = some c) :
    s.portRead = .value (c.setWidth 32) { s with inPos := s.inPos + 1 } := by
  rw [State.nextChar] at hc
  rw [State.portRead, hc]

theorem State.portRead_of_no_char {s : State} (hc : s.nextChar = none) : s.portRead = .hold := by
  rw [State.nextChar] at hc
  rw [State.portRead, hc]

theorem State.memRead_storage {s : State} {a : Word} {n : AccessWidth} (hf : s.alignmentFails a n = false)
    (ha : a ≠ Config.ioPortAddr) : s.memRead a n = .value (s.mem.readValue a n) s := by
  simp [State.memRead, hf, ha]

theorem State.memWrite_of_alignmentFails {s : State} {a : Word} {n : AccessWidth} (v : Word)
    (hf : s.alignmentFails a n = true) : s.memWrite a n v = .fault (.unalignedAccess a n) := by
  rw [State.memWrite, if_pos hf]

theorem State.memWrite_port (s : State) (n : AccessWidth) (v : Word) :
    s.memWrite Config.ioPortAddr n v = .done (s.portWrite v) := by
  simp [State.memWrite, State.alignmentFails_ioPortAddr]

theorem State.memWrite_storage {s : State} {a : Word} {n : AccessWidth} (v : Word) (hf : s.alignmentFails a n = false)
    (ha : a ≠ Config.ioPortAddr) : s.memWrite a n v = .done { s with mem := s.mem.writeValue a n v } := by
  simp [State.memWrite, hf, ha]

/-- Settles O16: the three tests in their order, each with the equation of its case. -/
theorem memReadFollowsPseudocode : Obligations.MemReadFollowsPseudocode := by
  intro s a n
  rw [portLiteral_eq]
  simp only [← State.alignmentFails_iff]
  cases hf : s.alignmentFails a n with
  | true => rw [if_pos rfl, State.memRead_of_alignmentFails hf]
  | false =>
    rw [if_neg Bool.false_ne_true]
    by_cases ha : a = Config.ioPortAddr
    · subst ha
      rw [if_pos rfl, State.memRead_port]
      cases hc : s.nextChar with
      | some c => rw [State.portRead_of_nextChar hc, ← BitVec.ofNat_toNat]
      | none => rw [State.portRead_of_no_char hc]
    · rw [if_neg ha, State.memRead_storage hf ha, Memory.readValue_eq_cellSum]

/-- Byte `i` of a value, as shift and remainder (R56). -/
theorem byteOf_eq_div_mod (v : Word) (i : Nat) : byteOf v i = BitVec.ofNat 8 (v.toNat / 2 ^ (8 * i) % 256) := by
  apply BitVec.eq_of_toNat_eq
  simp [byteOf, Nat.shiftRight_eq_div_pow]

/-- The byte a port write emits (R64). -/
theorem byteOf_zero (v : Word) : byteOf v 0 = BitVec.ofNat 8 (v.toNat % 256) := by simp [byteOf_eq_div_mod]

/-- Settles O17: the three tests in their order; the cells are those of `Memory.writeValue`. -/
theorem memWriteFollowsPseudocode : Obligations.MemWriteFollowsPseudocode := by
  intro s a n v hwf
  rw [portLiteral_eq]
  simp only [← State.alignmentFails_iff]
  cases hf : s.alignmentFails a n with
  | true => rw [if_pos rfl, State.memWrite_of_alignmentFails v hf]
  | false =>
    rw [if_neg Bool.false_ne_true]
    by_cases ha : a = Config.ioPortAddr
    · subst ha
      rw [if_pos rfl, State.memWrite_port, State.portWrite, byteOf_zero]
    · rw [if_neg ha]
      refine ⟨_, State.memWrite_storage v hf ha, fun i hi => ?_, fun b hb => ?_⟩
      · rw [← byteAddr_eq, Memory.read_writeValue a n v hwf i hi, byteOf_eq_div_mod]
      · exact Memory.read_writeValue_ne _ a n v b fun i hi => byteAddr_eq a i ▸ hb i hi

/-- A value written reads back as its low `8n` bits, as a word. -/
theorem Memory.readValue_writeValue_eq {m : Memory} (a : Word) (n : AccessWidth) (v : Word) (h : m.wf = true) :
    (m.writeValue a n v).readValue a n = BitVec.ofNat 32 (v.toNat % 2 ^ (8 * n.bytes)) := by
  apply BitVec.eq_of_toNat_eq
  have hlt : v.toNat % 2 ^ (8 * n.bytes) < 2 ^ 32 := (Nat.mod_le _ _).trans_lt v.isLt
  rw [Memory.readValue_writeValue a n v h, BitVec.toNat_ofNat, Nat.mod_eq_of_lt hlt, pow_mul]
  rfl

/-- Settles O18: the write leaves the alignment setting, so the read after it takes the same branch. -/
theorem writeThenReadReturnsLowBits : Obligations.WriteThenReadReturnsLowBits := by
  intro s a n v hwf ha
  rw [State.accessAllowed_iff, Bool.not_eq_false]
  refine ⟨fun hf => ⟨{ s with mem := s.mem.writeValue a n v }, State.memWrite_storage v hf ha, ?_⟩,
    fun hf => ⟨State.memWrite_of_alignmentFails v hf, State.memRead_of_alignmentFails hf⟩⟩
  rw [← Memory.readValue_writeValue_eq a n v hwf]
  exact State.memRead_storage hf ha

/-! ### The effective address (R51) -/

/-- Settles O24: reduction modulo 2^32 is additive. -/
theorem effectiveAddressWraps : Obligations.EffectiveAddressWraps := by
  intro s rs1 imm
  rw [State.effectiveAddress, State.unsignedReg, mod32_add, mod32_toNat, sext_eq_mod32 (by decide)]

/-! ### Misaligned data accesses (R59) -/

theorem State.load_of_alignmentFails {s : State} {n : AccessWidth} {rs1 : RegIdx} {imm : BitVec 12} (e : Extension)
    (rd : RegIdx) (hf : s.alignmentFails (s.effectiveAddress rs1 imm) n = true) :
    s.load n e rd rs1 imm = s.raise (.unalignedAccess (s.effectiveAddress rs1 imm) n) := by
  rw [State.load, State.memRead_of_alignmentFails hf]

theorem State.store_of_alignmentFails {s : State} {n : AccessWidth} {rs1 : RegIdx} {imm : BitVec 12} (rs2 : RegIdx)
    (hf : s.alignmentFails (s.effectiveAddress rs1 imm) n = true) :
    s.store n rs1 rs2 imm = s.raise (.unalignedAccess (s.effectiveAddress rs1 imm) n) := by
  rw [State.store, State.memWrite_of_alignmentFails _ hf]

/-- Settles O29: the address fails the alignment test of the width, and then both shared operations raise. -/
theorem misalignedDataAccessRecordsFault : Obligations.MisalignedDataAccessRecordsFault := by
  intro s r rs1 imm henf
  refine ⟨fun hodd => ?_, fun hmod => ?_⟩
  · have hf : s.alignmentFails (s.effectiveAddress rs1 imm) .half = true :=
      (s.alignmentFails_iff _ .half).mpr ⟨henf, hodd⟩
    exact ⟨congrArg _ (State.load_of_alignmentFails .sign r hf), congrArg _ (State.load_of_alignmentFails .zero r hf),
      congrArg _ (State.store_of_alignmentFails r hf)⟩
  · have hf : s.alignmentFails (s.effectiveAddress rs1 imm) .word = true :=
      (s.alignmentFails_iff _ .word).mpr ⟨henf, hmod⟩
    exact ⟨congrArg _ (State.load_of_alignmentFails .sign r hf), congrArg _ (State.store_of_alignmentFails r hf)⟩

/-! ### Stores to the port (R64) -/

theorem State.store_port {s : State} {rs1 : RegIdx} {imm : BitVec 12} (n : AccessWidth) (rs2 : RegIdx)
    (ha : s.effectiveAddress rs1 imm = Config.ioPortAddr) :
    s.store n rs1 rs2 imm = (s.portWrite (s.readReg rs2)).retire .fallThrough := by
  rw [State.store, ha, State.memWrite_port]

/-- The three stores to the port, whatever their width. -/
theorem State.store_port_portStoreInstr {s : State} {i : Instr} {n : AccessWidth} {rs1 rs2 : RegIdx} {imm : BitVec 12}
    (hi : exec i s = .next (s.store n rs1 rs2 imm)) (ha : s.effectiveAddress rs1 imm = Config.ioPortAddr) :
    PortStoreInstr i s (s.readReg rs2) := by
  refine ⟨_, hi, ?_⟩
  rw [State.store_port n rs2 ha, ← byteOf_zero]
  simp [CompletesAt, SameRecord, SameRegisters, SameCells]

/-- Settles O31: all three are `State.store` at the port. -/
theorem storesToPort : Obligations.StoresToPort := by
  intro s rs1 rs2 imm ha
  exact ⟨State.store_port_portStoreInstr (n := .byte) rfl ha, State.store_port_portStoreInstr (n := .half) rfl ha,
    State.store_port_portStoreInstr (n := .word) rfl ha⟩

/-! ### Loads from the port (R65 to R67) -/

theorem State.load_port_of_nextChar {s : State} {rs1 : RegIdx} {imm : BitVec 12} {c : Byte} (n : AccessWidth)
    (e : Extension) (rd : RegIdx) (ha : s.effectiveAddress rs1 imm = Config.ioPortAddr) (hc : s.nextChar = some c) :
    s.load n e rd rs1 imm = { s with inPos := s.inPos + 1 }.finish rd (extendLoaded n e (c.setWidth 32)) := by
  rw [State.load, ha, State.memRead_port, State.portRead_of_nextChar hc]

theorem State.load_port_of_no_char {s : State} {rs1 : RegIdx} {imm : BitVec 12} (n : AccessWidth) (e : Extension)
    (rd : RegIdx) (ha : s.effectiveAddress rs1 imm = Config.ioPortAddr) (hc : s.nextChar = none) :
    s.load n e rd rs1 imm = s := by
  rw [State.load, ha, State.memRead_port, State.portRead_of_no_char hc]

/-- The five loads from the port, whatever their width and extension. -/
theorem State.load_port_portLoadInstr {s : State} {i : Instr} {n : AccessWidth} {e : Extension} {rd rs1 : RegIdx}
    {imm : BitVec 12} {c : Byte} {v : Word} (hi : exec i s = .next (s.load n e rd rs1 imm))
    (ha : s.effectiveAddress rs1 imm = Config.ioPortAddr) (hc : s.nextChar = some c)
    (hv : extendLoaded n e (c.setWidth 32) = v) : PortLoadInstr i s rd v := by
  refine ⟨_, hi, ?_⟩
  rw [State.load_port_of_nextChar n e rd ha hc, hv]
  refine ⟨State.writeReg_writesRegister { s with inPos := s.inPos + 1 } rd v, ?_⟩
  simp [CompletesAt, SameRecord, SameCells]

/-- LB sign-extends the character itself (R67). -/
theorem extendLoaded_byte_sign_char (c : Byte) : extendLoaded .byte .sign (c.setWidth 32) = mod32 (sextInt c) := by
  rw [← sext_eq_mod32 (by decide)]
  simp [extendLoaded]

/-- Every other load gives the character's code: at 16 bits and more its sign bit is 0 (R67). -/
theorem extendLoaded_char {n : AccessWidth} {e : Extension} (h : (n, e) ≠ (.byte, .sign)) (c : Byte) :
    extendLoaded n e (c.setWidth 32) = BitVec.ofNat 32 c.toNat := by
  rw [BitVec.ofNat_toNat]
  cases n <;> cases e
  case byte.sign => exact absurd rfl h
  case half.sign =>
    have hmsb : (c.setWidth 16).msb = false := by simp [BitVec.msb_setWidth]
    simp [extendLoaded, sext, BitVec.signExtend_eq_setWidth_of_msb_false hmsb]
  all_goals simp [extendLoaded]

/-- Settles O27: all five are `State.load` at the port; they differ in how they extend the character. -/
theorem loadsFromPort : Obligations.LoadsFromPort := by
  intro s rd rs1 imm c ha hc
  exact ⟨State.load_port_portLoadInstr rfl ha hc (extendLoaded_byte_sign_char c),
    State.load_port_portLoadInstr (n := .half) (e := .sign) rfl ha hc (extendLoaded_char (by decide) c),
    State.load_port_portLoadInstr (n := .word) (e := .sign) rfl ha hc (extendLoaded_char (by decide) c),
    State.load_port_portLoadInstr (n := .byte) (e := .zero) rfl ha hc (extendLoaded_char (by decide) c),
    State.load_port_portLoadInstr (n := .half) (e := .zero) rfl ha hc (extendLoaded_char (by decide) c)⟩

/-- Settles O28: with no character `State.load` at the port leaves the state. -/
theorem loadFromEmptyPortHolds : Obligations.LoadFromEmptyPortHolds := by
  intro s rd rs1 imm ha hc
  have hold (n : AccessWidth) (e : Extension) := congrArg (Host.Outcome.next (φ := Fault) (ρ := Refusal))
    (State.load_port_of_no_char n e rd ha hc)
  exact ⟨hold .byte .sign, hold .half .sign, hold .word .sign, hold .byte .zero, hold .half .zero⟩

/-! ### What a step fetches (R59, R68, R75) -/

/-- The step of a hart that can step. -/
theorem step_eq_runningStep {s : State} (hs : s.canStep = true) : step s = runningStep s := by
  obtain ⟨hrun, hfault⟩ : s.run = .running ∧ s.fault = none := by simpa [State.canStep] using hs
  rw [step, engineStep, hfault, hrun]

theorem step_of_fetch_value {s s' : State} {w : Word} (hs : s.canStep = true) (hw : s.fetch = .value w s') :
    step s = executeWord s.pc w s' := by
  rw [step_eq_runningStep hs, runningStep, hw]

theorem step_of_fetch_fault {s : State} {f : Fault} (hs : s.canStep = true) (hw : s.fetch = .fault f) :
    step s = .next (s.raise f) := by
  rw [step_eq_runningStep hs, runningStep, hw]

theorem step_of_fetch_hold {s : State} (hs : s.canStep = true) (hw : s.fetch = .hold) : step s = .next s := by
  rw [step_eq_runningStep hs, runningStep, hw]

theorem executeWord_of_decode_ok {w : Word} {i : Instr} (hd : decode w = .ok i) (p : Word) (s : State) :
    executeWord p w s = exec i s := by
  rw [executeWord, hd]

theorem executeWord_of_decode_error {w : Word} {r : Reject} (hd : decode w = .error r) (p : Word) (s : State) :
    executeWord p w s = .next (s.raise (rejectFault p r)) := by
  rw [executeWord, hd]

theorem State.fetch_port {s : State} (hp : s.pc = Config.ioPortAddr) : s.fetch = s.portRead := by
  rw [State.fetch, hp, State.memRead_port]

theorem State.fetch_storage {s : State} (hf : s.alignmentFails s.pc .word = false) (hp : s.pc ≠ Config.ioPortAddr) :
    s.fetch = .value (s.mem.readValue s.pc .word) s :=
  State.memRead_storage hf hp

/-- Settles O42: the fetch is a `MemRead` of a word that fails its alignment test. -/
theorem misalignedFetchRecordsFault : Obligations.MisalignedFetchRecordsFault := by
  intro s hs henf hpc
  have hf : s.alignmentFails s.pc .word = true := (s.alignmentFails_iff _ .word).mpr ⟨henf, hpc⟩
  exact step_of_fetch_fault hs (State.memRead_of_alignmentFails hf)

/-- Settles O43: the fetch is a port read; what follows is the execution of the character as a word. -/
theorem fetchFromPortExecutesCharacter : Obligations.FetchFromPortExecutesCharacter := by
  intro s hs hp
  have hfetch := State.fetch_port hp
  cases hc : s.nextChar with
  | none => exact step_of_fetch_hold hs (hfetch.trans (State.portRead_of_no_char hc))
  | some c =>
    have hstep := step_of_fetch_value hs (hfetch.trans (State.portRead_of_nextChar hc))
    rw [← BitVec.ofNat_toNat] at hstep
    cases hd : decode (BitVec.ofNat 32 c.toNat) with
    | ok i => simp only [hd]; exact hstep.trans (executeWord_of_decode_ok hd _ _)
    | error r => simp only [hd]; exact hstep.trans (executeWord_of_decode_error hd _ _)

/-- Settles O53: SW leaves its word in the four cells at the new `pc`, where the next fetch reads it. -/
theorem storedWordIsExecutedNext : Obligations.StoredWordIsExecutedNext := by
  intro s t rs1 rs2 imm i hs hwf hea hport hallowed hd hex
  have hf : s.alignmentFails (s.pc + 4#32) .word = false := (s.accessAllowed_iff _ .word).mp hallowed
  have hstore : s.store .word rs1 rs2 imm = t := Host.Outcome.next.inj hex
  rw [State.store, hea, State.memWrite_storage _ hf hport] at hstore
  have hcan : t.canStep = true := by simpa [State.canStep, ← hstore] using hs
  have hpc : t.pc = s.pc + 4#32 := by simp [← hstore]
  have hmem : t.mem.readValue t.pc .word = s.readReg rs2 := by
    rw [hpc, ← hstore, State.retire_mem, Memory.readValue_writeValue_word _ _ hwf]
  have hf' : t.alignmentFails t.pc .word = false := by
    rw [hpc, State.alignmentFails_congr (s := s) (by simp [← hstore]), hf]
  have hfetch := State.fetch_storage hf' (hpc ▸ hport)
  rw [hmem] at hfetch
  exact (step_of_fetch_value hcan hfetch).trans (executeWord_of_decode_ok hd _ _)

/-! ### The port's histories (R64, R65, R73) -/

/-- An instruction consumes at most one character, and only one that is supplied. -/
theorem Effect.inPos_grows {i : Instr} {s t : State} (h : Effect i s t) :
    t.inPos = s.inPos ∨ (t.inPos = s.inPos + 1 ∧ s.inPos < s.input.length) := by
  cases h with
  | portLoad _ _ hc => exact .inr ⟨by simp, hc⟩
  | _ => simp

/-- An instruction emits at most one byte. -/
theorem Effect.out_grows {i : Instr} {s t : State} (h : Effect i s t) : t.out = s.out ∨ ∃ b, t.out = s.out ++ [b] := by
  cases h with
  | @portStore v => exact .inr ⟨byteOf v 0, by simp⟩
  | _ => simp

/-- Of the loads a word from the port can only be LB of address 0 (R68). -/
theorem eq_lb_of_fitsPortWord {i : Instr} (hfits : fitsPortWord i = true) (hl : isLoad i = true) :
    ∃ rd, i = .lb rd 0#5 0#12 := by
  cases i
  case lb rd rs1 imm =>
    obtain ⟨rfl, rfl⟩ : rs1 = 0#5 ∧ imm = 0#12 := by simpa [fitsPortWord] using hfits
    exact ⟨rd, rfl⟩
  case lh | lw | lbu | lhu => cases hfits
  all_goals cases hl

/-- An instruction that was fetched from the port consumes no further character: it loads from address 0 if at all. -/
theorem exec_port_word_inPos {c : Byte} {i : Instr} {s t : State} (hd : decode (c.setWidth 32) = .ok i)
    (h : exec i s = .next t) : t.inPos = s.inPos := by
  cases hl : isLoad i with
  | false => exact (exec_effect h).inPos_eq hl
  | true =>
    obtain ⟨rd, rfl⟩ := eq_lb_of_fitsPortWord (decode_port_word c i hd) hl
    have hea : s.effectiveAddress 0#5 0#12 = 0#32 := rfl
    have hload : s.load .byte .sign rd 0#5 0#12 = t := Host.Outcome.next.inj h
    rw [← hload, State.load, hea, State.memRead_storage (s.alignmentFails_byte _) (by decide)]
    exact s.finish_inPos rd _

/-- A word that was fetched from the port consumes no further character, whether it executes or is rejected. -/
theorem executeWord_port_word_inPos {c : Byte} {p : Word} {s t : State}
    (h : executeWord p (c.setWidth 32) s = .next t) : t.inPos = s.inPos := by
  cases hd : decode (c.setWidth 32) with
  | ok i => exact exec_port_word_inPos hd ((executeWord_of_decode_ok hd p s).symm.trans h)
  | error r =>
    rw [executeWord_of_decode_error hd] at h
    rw [← Host.Outcome.next.inj h, State.raise_inPos]

/-- A step consumes at most one character: the fetch takes it, or the fetched instruction does. -/
theorem step_inPos_grows {s t : State} (h : step s = .next t) :
    t.inPos = s.inPos ∨ (t.inPos = s.inPos + 1 ∧ s.inPos < s.input.length) := by
  obtain ⟨_, _, ⟨_, rfl⟩ | ⟨f, _, rfl⟩ | ⟨w, s', r, hw, _, rfl⟩ | ⟨w, s', i, hw, hd, hex⟩⟩ := step_cases h
  · exact .inl rfl
  · exact .inl rfl
  all_goals obtain ⟨c, _, hc, rfl, rfl⟩ | ⟨_, _, rfl⟩ := State.fetch_value hw
  · exact .inr ⟨rfl, (List.getElem?_eq_some_iff.mp hc).1⟩
  · exact .inl rfl
  · exact .inr ⟨exec_port_word_inPos hd hex, (List.getElem?_eq_some_iff.mp hc).1⟩
  · exact (exec_effect hex).inPos_grows

/-- A fetch emits nothing. -/
theorem State.fetch_value_out {s s' : State} {w : Word} (h : s.fetch = .value w s') : s'.out = s.out := by
  rcases State.fetch_value h with ⟨c, _, _, _, rfl⟩ | ⟨_, _, rfl⟩ <;> rfl

/-- A step emits at most one byte. -/
theorem step_out_grows {s t : State} (h : step s = .next t) : t.out = s.out ∨ ∃ b, t.out = s.out ++ [b] := by
  obtain ⟨_, _, ⟨_, rfl⟩ | ⟨f, _, rfl⟩ | ⟨w, s', r, hw, _, rfl⟩ | ⟨w, s', i, hw, _, hex⟩⟩ := step_cases h
  · exact .inl rfl
  · exact .inl rfl
  · exact .inl ((State.raise_out s' _).trans (State.fetch_value_out hw))
  · rw [← State.fetch_value_out hw]
    exact (exec_effect hex).out_grows

/-- Settles O49: both histories, each over what a step can be. -/
theorem portHistoriesOnlyGrow : Obligations.PortHistoriesOnlyGrow :=
  fun _ _ h => ⟨step_inPos_grows h, step_out_grows h⟩

/-! ### The hold and the supply that lifts it (R66) -/

/-- A Load is `State.load`, with the same operands in every state. -/
theorem exec_of_isLoad {i : Instr} (hl : isLoad i = true) :
    ∃ n e rd rs1 imm, ∀ s, exec i s = .next (s.load n e rd rs1 imm) := by
  cases i
  case lb | lh | lw | lbu | lhu => exact ⟨_, _, _, _, _, fun _ => rfl⟩
  all_goals cases hl

/-- A load that leaves the state waits at the port. -/
theorem State.load_eq_self {s : State} {n : AccessWidth} {e : Extension} {rd rs1 : RegIdx} {imm : BitVec 12}
    (hf : s.fault = none) (h : s.load n e rd rs1 imm = s) :
    s.effectiveAddress rs1 imm = Config.ioPortAddr ∧ s.nextChar = none := by
  rcases s.load_cases n e rd rs1 imm with ⟨_, hl⟩ | ⟨_, ha, hc, _⟩ | ⟨c, _, _, _, hl⟩ | ⟨_, _, hl⟩
  · have hrec := congrArg State.fault (hl.symm.trans h)
    rw [State.raise_fault, hf] at hrec
    cases hrec
  · exact ⟨ha, hc⟩
  all_goals
    have hcount := congrArg State.cycles (hl.symm.trans h)
    simp at hcount

/-- An instruction that leaves the state is a load that waits at the port. -/
theorem exec_held {i : Instr} {s : State} (hf : s.fault = none) (h : exec i s = .next s) :
    ∃ n e rd rs1 imm, (∀ u, exec i u = .next (u.load n e rd rs1 imm)) ∧
      s.effectiveAddress rs1 imm = Config.ioPortAddr ∧ s.nextChar = none := by
  rcases exec_ends h with ⟨_, _, hcount⟩ | ⟨f, hs, _⟩ | ⟨_, _, hl⟩
  · omega
  · rw [hs] at hf; cases hf
  · obtain ⟨n, e, rd, rs1, imm, hi⟩ := exec_of_isLoad hl
    exact ⟨n, e, rd, rs1, imm, hi, State.load_eq_self hf (Host.Outcome.next.inj ((hi s).symm.trans h))⟩

/-- A step that leaves the state waits for a character in the fetch, or executes an instruction from storage that leaves
the state. -/
theorem step_held {s : State} (h : step s = .next s) :
    (s.pc = Config.ioPortAddr ∧ s.nextChar = none) ∨
    (∃ i, s.alignmentFails s.pc .word = false ∧ s.pc ≠ Config.ioPortAddr ∧
      decode (s.mem.readValue s.pc .word) = .ok i ∧ exec i s = .next s) := by
  obtain ⟨hf, _, ⟨hw, _⟩ | ⟨f, _, hs⟩ | ⟨w, s', r, _, _, hs⟩ | ⟨w, s', i, hw, hd, hex⟩⟩ := step_cases h
  · exact .inl (State.fetch_hold hw)
  · rw [hs] at hf; cases hf
  · rw [hs] at hf; cases hf
  · rcases s.fetch_cases with ⟨_, hv⟩ | ⟨_, _, hv⟩ | ⟨c, _, _, hv⟩ | ⟨halign, hp, hv⟩ <;> rw [hv] at hw <;> cases hw
    · obtain ⟨_, _, hcount⟩ := exec_port_word hd hex
      exact absurd hcount.symm (Nat.succ_ne_self _)
    · exact .inr ⟨i, halign, hp, hd, hex⟩

/-- The first character supplied to a hart that has consumed all it had is the next one. -/
theorem State.nextChar_supply {s : State} (hs : s.inv = true) (hc : s.nextChar = none) (c : Byte) (cs : List Byte) :
    (s.supply (c :: cs)).nextChar = some c := by
  obtain ⟨_, _, hle, _⟩ := (State.inv_iff s).mp hs
  have hge : s.input.length ≤ s.inPos := List.getElem?_eq_none_iff.mp hc
  have hpos : s.inPos = s.input.length := Nat.le_antisymm hle hge
  simp [State.nextChar, hpos]

/-- A step that fetches a character from the port consumes just that one. -/
theorem step_port_inPos {s : State} {c : Byte} (hs : s.canStep = true) (hp : s.pc = Config.ioPortAddr)
    (hc : s.nextChar = some c) : ∃ t, step s = .next t ∧ t.inPos = s.inPos + 1 := by
  have hfetch := (State.fetch_port hp).trans (State.portRead_of_nextChar hc)
  obtain ⟨t, ht⟩ := executeWord_answers_next s.pc (c.setWidth 32) { s with inPos := s.inPos + 1 }
  exact ⟨t, (step_of_fetch_value hs hfetch).trans ht, executeWord_port_word_inPos ht⟩

/-- The step that waited consumes the first character supplied: in the fetch if it waited there, else in the load it
executes, which it fetches as before. -/
theorem step_supply_inPos {s : State} (hs : s.inv = true) (h : step s = .next s) (c : Byte) (cs : List Byte) :
    ∃ t, step (s.supply (c :: cs)) = .next t ∧ t.inPos = s.inPos + 1 := by
  obtain ⟨hfault, hrun, _⟩ := step_cases h
  have hcan : (s.supply (c :: cs)).canStep = true := by simp [State.canStep, hfault, hrun]
  rcases step_held h with ⟨hp, hc⟩ | ⟨i, halign, hp, hd, hex⟩
  · exact step_port_inPos hcan hp (State.nextChar_supply hs hc c cs)
  · obtain ⟨n, e, rd, rs1, imm, hi, ha, hc⟩ := exec_held hfault hex
    have hfetch := State.fetch_storage (s := s.supply (c :: cs)) halign hp
    have hexec := (executeWord_of_decode_ok hd s.pc (s.supply (c :: cs))).trans (hi _)
    have hload := State.load_port_of_nextChar (s := s.supply (c :: cs)) n e rd ha (State.nextChar_supply hs hc c cs)
    refine ⟨_, (step_of_fetch_value hcan hfetch).trans hexec, ?_⟩
    rw [hload, State.finish_inPos, State.supply_inPos]

/-- Settles O51: the state it leaves is another one, since the input position has moved. -/
theorem supplyLiftsHold : Obligations.SupplyLiftsHold := by
  intro s c cs hs h
  obtain ⟨t, ht, hpos⟩ := step_supply_inPos hs h c cs
  refine ⟨t, ht, ?_, hpos⟩
  rintro rfl
  exact absurd hpos.symm (Nat.succ_ne_self _)

end Sys2Proof.Machine
end

section
/-! Proofs of the statements of 30_encoding: the round trip (R93 to R109), the fields as numbers (R93 to R101), the bits a
handler ignores (R110 to R112), what becomes of every word (R113), and the words that halt (50_execution_engine R248). -/

namespace Sys2Proof

/-! ### A word from its fields

Each format puts the fields and the immediate that it reads back where they were: the converse of Laws/Encoding.lean. -/

theorem encodeR_fields (w : Word) :
    encodeR (opcodeOf w) (funct3Of w) (funct7Of w) (rdOf w) (rs1Of w) (rs2Of w) = w := by
  apply BitVec.eq_of_getLsbD_eq
  intro i hi
  simp only [encodeR, opcodeOf, funct3Of, funct7Of, rdOf, rs1Of, rs2Of, extractBitfield, BitVec.extractLsb,
    BitVec.getLsbD_append, BitVec.getLsbD_extractLsb']
  interval_cases i <;> simp

theorem encodeI_fields (w : Word) : encodeI (opcodeOf w) (funct3Of w) (rdOf w) (rs1Of w) (immIOf w) = w := by
  apply BitVec.eq_of_getLsbD_eq
  intro i hi
  simp only [encodeI, opcodeOf, funct3Of, rdOf, rs1Of, immIOf, extractBitfield, BitVec.extractLsb,
    BitVec.getLsbD_append, BitVec.getLsbD_extractLsb']
  interval_cases i <;> simp

theorem encodeS_fields (w : Word) : encodeS (opcodeOf w) (funct3Of w) (rs1Of w) (rs2Of w) (immSOf w) = w := by
  apply BitVec.eq_of_getLsbD_eq
  intro i hi
  simp only [encodeS, opcodeOf, funct3Of, rs1Of, rs2Of, immSOf, extractBitfield, BitVec.extractLsb,
    BitVec.getLsbD_append, BitVec.getLsbD_extractLsb']
  interval_cases i <;> simp

theorem encodeB_fields (w : Word) : encodeB (opcodeOf w) (funct3Of w) (rs1Of w) (rs2Of w) (immBOf w) = w := by
  apply BitVec.eq_of_getLsbD_eq
  intro i hi
  simp only [encodeB, opcodeOf, funct3Of, rs1Of, rs2Of, immBOf, extractBitfield, BitVec.extractLsb,
    BitVec.getLsbD_append, BitVec.getLsbD_extractLsb']
  interval_cases i <;> simp

theorem encodeU_fields (w : Word) : encodeU (opcodeOf w) (rdOf w) (immUOf w) = w := by
  apply BitVec.eq_of_getLsbD_eq
  intro i hi
  simp only [encodeU, opcodeOf, rdOf, immUOf, extractBitfield, BitVec.extractLsb,
    BitVec.getLsbD_append, BitVec.getLsbD_extractLsb']
  interval_cases i <;> simp

theorem encodeJ_fields (w : Word) : encodeJ (opcodeOf w) (rdOf w) (immJOf w) = w := by
  apply BitVec.eq_of_getLsbD_eq
  intro i hi
  simp only [encodeJ, opcodeOf, rdOf, immJOf, extractBitfield, BitVec.extractLsb,
    BitVec.getLsbD_append, BitVec.getLsbD_extractLsb']
  interval_cases i <;> simp

/-! ### The canonical word of an instruction -/

/-- The group whose handler decodes the instruction (R102). -/
def Instr.group : Instr → OpcodeGroup
  | .lui .. => .lui
  | .auipc .. => .auipc
  | .jal .. => .jal
  | .jalr .. => .jalr
  | .beq .. | .bne .. | .blt .. | .bge .. | .bltu .. | .bgeu .. => .branch
  | .lb .. | .lh .. | .lw .. | .lbu .. | .lhu .. => .load
  | .sb .. | .sh .. | .sw .. => .store
  | .addi .. | .slti .. | .sltiu .. | .xori .. | .ori .. | .andi .. | .slli .. | .srli .. | .srai .. => .arithImm
  | .add .. | .sub .. | .sll .. | .slt .. | .sltu .. | .xor .. | .srl .. | .sra .. | .or .. | .and .. => .arithReg
  | .fence => .fence
  | .ecall => .ecall

/-- The encoder writes the opcode of the instruction's own group. -/
theorem opcodeOf_encode (i : Instr) : opcodeOf (encode i) = i.group.opcode := by
  cases i
  case lui | auipc => exact opcodeOf_encodeU ..
  case jal => exact opcodeOf_encodeJ ..
  case beq | bne | blt | bge | bltu | bgeu => exact opcodeOf_encodeB ..
  case sb | sh | sw => exact opcodeOf_encodeS ..
  case slli | srli | srai => exact opcodeOf_encodeShift ..
  case add | sub | sll | slt | sltu | xor | srl | sra | or | and => exact opcodeOf_encodeR ..
  case fence | ecall => rfl
  all_goals exact opcodeOf_encodeI ..

theorem decode_encode (i : Instr) : decode (encode i) = decodeGroup i.group (encode i) :=
  decode_of_group _ _ (opcodeOf_encode i)

/-- Settles O1: the opcode leads to the handler of the instruction's group (`decode_encode`), which selects by `funct3`
and `funct7` and reads every operand back. Well-formedness is needed where the format has no place for the low bits of an
immediate (`immBOf_encodeB`, `immJOf_encodeJ`, `immUOf_encodeU`). -/
theorem decodeEncodeRoundTrip : Obligations.DecodeEncodeRoundTrip := by
  intro i hi
  rw [decode_encode]
  cases i
  case lui | auipc =>
    simp [Instr.group, encode, decodeGroup, rdOf_encodeU, immUOf_encodeU _ _ _ hi]
  case jal =>
    simp [Instr.group, encode, decodeGroup, rdOf_encodeJ, immJOf_encodeJ _ _ _ hi]
  case jalr =>
    simp [Instr.group, encode, decodeGroup, rdOf_encodeI, rs1Of_encodeI, immIOf_encodeI]
  case beq | bne | blt | bge | bltu | bgeu =>
    simp [Instr.group, encode, decodeGroup, decodeBranch, funct3Of_encodeB, rs1Of_encodeB, rs2Of_encodeB,
      immBOf_encodeB _ _ _ _ _ hi]
  case lb | lh | lw | lbu | lhu =>
    simp [Instr.group, encode, decodeGroup, decodeLoad, funct3Of_encodeI, rdOf_encodeI, rs1Of_encodeI, immIOf_encodeI]
  case sb | sh | sw =>
    simp [Instr.group, encode, decodeGroup, decodeStore, funct3Of_encodeS, rs1Of_encodeS, rs2Of_encodeS, immSOf_encodeS]
  case addi | slti | sltiu | xori | ori | andi =>
    simp [Instr.group, encode, decodeGroup, decodeArithImm, funct3Of_encodeI, rdOf_encodeI, rs1Of_encodeI,
      immIOf_encodeI]
  case slli =>
    simp [Instr.group, encode, decodeGroup, decodeArithImm, decodeShiftLeftImm, funct3Of_encodeShift,
      funct7Of_encodeShift, rdOf_encodeShift, rs1Of_encodeShift, shamtOf_encodeShift]
  case srli | srai =>
    simp [Instr.group, encode, decodeGroup, decodeArithImm, decodeShiftRightImm, funct3Of_encodeShift,
      funct7Of_encodeShift, rdOf_encodeShift, rs1Of_encodeShift, shamtOf_encodeShift]
  case sub | sra =>
    simp [Instr.group, encode, decodeGroup, decodeArithReg, funct3Of_encodeR, funct7Of_encodeR, rdOf_encodeR,
      rs1Of_encodeR, rs2Of_encodeR]
  case add | sll | slt | sltu | xor | srl | or | and =>
    simp [Instr.group, encode, decodeGroup, decodeArithReg, decodeArithRegBase, funct3Of_encodeR, funct7Of_encodeR,
      rdOf_encodeR, rs1Of_encodeR, rs2Of_encodeR]
  case fence | ecall => rfl

/-! ### Fields as numbers -/

theorem toNat_opcodeOf (w : Word) : (opcodeOf w).toNat = w.toNat % 2 ^ 7 := by
  rw [opcodeOf, toNat_extractBitfield, Nat.pow_zero, Nat.div_one]

theorem toNat_funct3Of (w : Word) : (funct3Of w).toNat = w.toNat / 2 ^ 12 % 2 ^ 3 := toNat_extractBitfield w 14 12

/-- A bit field that reaches bit 31 needs no remainder. -/
theorem toNat_extractBitfield_top (w : Word) {lsb : Nat} (h : lsb ≤ 31) :
    (extractBitfield w 31 lsb).toNat = w.toNat / 2 ^ lsb := by
  have hlen : lsb + (31 - lsb + 1) = 32 := by omega
  rw [toNat_extractBitfield, Nat.mod_eq_of_lt]
  apply Nat.div_lt_of_lt_mul
  rw [← pow_add, hlen]
  exact w.isLt

theorem toNat_funct7Of (w : Word) : (funct7Of w).toNat = w.toNat / 2 ^ 25 := toNat_extractBitfield_top w (by decide)

theorem toNat_immIOf (w : Word) : (immIOf w).toNat = w.toNat / 2 ^ 20 := toNat_extractBitfield_top w (by decide)

theorem toNat_immSOf (w : Word) : (immSOf w).toNat = w.toNat / 2 ^ 25 * 2 ^ 5 + w.toNat / 2 ^ 7 % 2 ^ 5 := by
  rw [immSOf, Machine.toNat_append_add, toNat_extractBitfield_top w (by decide), toNat_extractBitfield]

theorem toNat_immBOf (w : Word) : (immBOf w).toNat =
    w.toNat / 2 ^ 31 * 2 ^ 12 + w.toNat / 2 ^ 7 % 2 * 2 ^ 11 + w.toNat / 2 ^ 25 % 2 ^ 6 * 2 ^ 5 +
      w.toNat / 2 ^ 8 % 2 ^ 4 * 2 := by
  simp only [immBOf, Machine.toNat_append_add, toNat_extractBitfield_top w (lsb := 31) (by decide),
    toNat_extractBitfield, BitVec.toNat_ofNat]
  omega

theorem toNat_immUOf (w : Word) : (immUOf w).toNat = w.toNat - w.toNat % 2 ^ 12 := by
  rw [immUOf, Machine.toNat_append_add, toNat_extractBitfield_top w (by decide), BitVec.toNat_ofNat]
  omega

theorem toNat_immJOf (w : Word) : (immJOf w).toNat =
    w.toNat / 2 ^ 31 * 2 ^ 20 + w.toNat / 2 ^ 12 % 2 ^ 8 * 2 ^ 12 + w.toNat / 2 ^ 20 % 2 * 2 ^ 11 +
      w.toNat / 2 ^ 21 % 2 ^ 10 * 2 := by
  simp only [immJOf, Machine.toNat_append_add, toNat_extractBitfield_top w (lsb := 31) (by decide),
    toNat_extractBitfield, BitVec.toNat_ofNat]
  omega

/-- Settles O8: each bit range is a quotient and a remainder, and concatenation is a sum. -/
theorem immediatesAreReassembled : Obligations.ImmediatesAreReassembled := by
  intro w
  refine ⟨toNat_opcodeOf w, toNat_extractBitfield w 11 7, toNat_funct3Of w, toNat_extractBitfield w 19 15,
    toNat_extractBitfield w 24 20, toNat_funct7Of w, toNat_immIOf w, toNat_immSOf w, toNat_immBOf w, toNat_immUOf w,
    toNat_immJOf w, ?_, ?_⟩
  · rw [toNat_immIOf]; exact toNat_extractBitfield w 24 20
  · rw [toNat_immIOf, toNat_funct7Of, Nat.div_div_eq_div_mul, ← pow_add]

/-! ### Dispatch by the opcode (R102, R103) -/

theorem opcodeOf_eq_iff (w : Word) (op : BitVec 7) : opcodeOf w = op ↔ w.toNat % 2 ^ 7 = op.toNat := by
  rw [← BitVec.toNat_inj, toNat_opcodeOf]

/-- A handler that answers the same instruction of every word makes its opcode select that instruction. -/
theorem opcodeSelects_of_group (g : OpcodeGroup) {i : Word → Instr} (h : ∀ w, decodeGroup g w = .ok (i w)) :
    Machine.OpcodeSelects g.opcode.toNat i := fun w hw =>
  (decode_of_group w g ((opcodeOf_eq_iff w _).mpr hw)).trans (h w)

/-- Settles O5: the three handlers test nothing, so the opcode alone selects. -/
theorem ignoredFieldsDoNotSelect : Obligations.IgnoredFieldsDoNotSelect :=
  ⟨opcodeSelects_of_group .jalr fun _ => rfl, opcodeSelects_of_group .fence fun _ => rfl,
    opcodeSelects_of_group .ecall fun _ => rfl, fun _ _ _ => funct3Of_encodeI .., rfl, rfl⟩

/-- Settles O6: twelve words, each decoded by evaluation. -/
theorem writtenWordsDecode : Obligations.WrittenWordsDecode := by
  unfold Obligations.WrittenWordsDecode
  decide

/-! ### Masked words -/

/-- Masking acts on each field by itself. -/
theorem and_encodeR (op op' : BitVec 7) (f3 f3' : BitVec 3) (f7 f7' : BitVec 7) (rd rd' rs1 rs1' rs2 rs2' : RegIdx) :
    encodeR op f3 f7 rd rs1 rs2 &&& encodeR op' f3' f7' rd' rs1' rs2' =
      encodeR (op &&& op') (f3 &&& f3') (f7 &&& f7') (rd &&& rd') (rs1 &&& rs1') (rs2 &&& rs2') := by
  apply BitVec.eq_of_getLsbD_eq
  intro i hi
  simp only [encodeR, BitVec.getLsbD_and, BitVec.getLsbD_append]
  split_ifs <;> rfl

/-- A mask that keeps the opcode and lets `m3` and `m7` through of `funct3` and `funct7`; the masks of R113 are of this
form. -/
def fieldMask (m3 : BitVec 3) (m7 : BitVec 7) : Word := encodeR 0x7F#7 m3 m7 0#5 0#5 0#5

/-- Comparing a masked word is comparing its masked fields. -/
theorem and_fieldMask_eq_iff (w : Word) (op : BitVec 7) (m3 v3 : BitVec 3) (m7 v7 : BitVec 7) :
    w &&& fieldMask m3 m7 = encodeR op v3 v7 0#5 0#5 0#5 ↔
      opcodeOf w = op ∧ funct3Of w &&& m3 = v3 ∧ funct7Of w &&& m7 = v7 := by
  have hop : opcodeOf w &&& 0x7F#7 = opcodeOf w := BitVec.and_allOnes
  conv_lhs => rw [← encodeR_fields w, fieldMask, and_encodeR, hop]
  constructor
  · intro h
    have ho := congrArg opcodeOf h
    have h3 := congrArg funct3Of h
    have h7 := congrArg funct7Of h
    simp only [opcodeOf_encodeR, funct3Of_encodeR, funct7Of_encodeR] at ho h3 h7
    exact ⟨ho, h3, h7⟩
  · rintro ⟨rfl, rfl, rfl⟩
    simp only [BitVec.and_zero]

/-- A mask of the opcode and of some bits of `funct3`. -/
theorem and_funct3Mask_eq_iff (w : Word) (op : BitVec 7) (m3 v3 : BitVec 3) {m v : Word} (hm : m = fieldMask m3 0#7)
    (hv : v = encodeR op v3 0#7 0#5 0#5 0#5) : w &&& m = v ↔ opcodeOf w = op ∧ funct3Of w &&& m3 = v3 := by
  rw [hm, hv, and_fieldMask_eq_iff, BitVec.and_zero, eq_self, and_true]

/-- The mask of the opcode and the whole `funct3`. -/
theorem and_0x707F_eq_iff (w : Word) (op : BitVec 7) (v3 : BitVec 3) {v : Word}
    (hv : v = encodeR op v3 0#7 0#5 0#5 0#5) : w &&& 0x0000707F#32 = v ↔ opcodeOf w = op ∧ funct3Of w = v3 := by
  have hf : funct3Of w &&& 7#3 = funct3Of w := BitVec.and_allOnes
  have h := and_funct3Mask_eq_iff w op 7#3 v3 (m := 0x0000707F#32) rfl hv
  rwa [hf] at h

/-- The mask of the opcode alone. -/
theorem and_0x7F_eq_iff (w : Word) (op : BitVec 7) {v : Word} (hv : v = encodeR op 0#3 0#7 0#5 0#5 0#5) :
    w &&& 0x0000007F#32 = v ↔ opcodeOf w = op := by
  have h := and_funct3Mask_eq_iff w op 0#3 0#3 (m := 0x0000007F#32) rfl hv
  rwa [BitVec.and_zero, eq_self, and_true] at h

/-- The mask of the opcode and the whole `funct7`. -/
theorem and_0xFE00007F_eq_iff (w : Word) (op v7 : BitVec 7) {v : Word} (hv : v = encodeR op 0#3 v7 0#5 0#5 0#5) :
    w &&& 0xFE00007F#32 = v ↔ opcodeOf w = op ∧ funct7Of w = v7 := by
  have hm : 0xFE00007F#32 = fieldMask 0#3 0x7F#7 := rfl
  have hf : funct7Of w &&& 0x7F#7 = funct7Of w := BitVec.and_allOnes
  rw [hm, hv, and_fieldMask_eq_iff, BitVec.and_zero, eq_self, true_and, hf]

/-- The mask that drops `funct3`. -/
theorem and_0xFFFF8FFF (w : Word) :
    w &&& 0xFFFF8FFF#32 = encodeI (opcodeOf w) 0b000#3 (rdOf w) (rs1Of w) (immIOf w) := by
  apply BitVec.eq_of_getLsbD_eq
  intro i hi
  simp only [encodeI, opcodeOf, rdOf, rs1Of, immIOf, extractBitfield, BitVec.extractLsb, BitVec.getLsbD_and,
    BitVec.getLsbD_append, BitVec.getLsbD_extractLsb']
  interval_cases i <;> simp

/-! ### A decoded word

Each handler that tests fields answers a well-formed instruction whose canonical word is the word it was given: the tests
fix `funct3` and `funct7`, and the operands are the other fields. -/

/-- The last arm of a handler that uses all eight values of `funct3`. -/
theorem funct3_eq_seven {f : BitVec 3} (h0 : f ≠ 0) (h1 : f ≠ 1) (h2 : f ≠ 2) (h3 : f ≠ 3) (h4 : f ≠ 4) (h5 : f ≠ 5)
    (h6 : f ≠ 6) : f = 7#3 := by bv_omega

theorem decodeBranch_ok {w : Word} {i : Instr} (ho : opcodeOf w = OpcodeGroup.branch.opcode)
    (h : decodeBranch w = .ok i) : encode i = w ∧ WellFormed i = true := by
  have hw := encodeB_fields w
  unfold decodeBranch at h
  split at h <;> rename_i hf
  case h_7 => cases h
  all_goals
    cases h
    rw [ho, hf] at hw
    exact ⟨hw, immBOf_even w⟩

theorem decodeLoad_ok {w : Word} {i : Instr} (ho : opcodeOf w = OpcodeGroup.load.opcode) (h : decodeLoad w = .ok i) :
    encode i = w ∧ WellFormed i = true := by
  have hw := encodeI_fields w
  unfold decodeLoad at h
  split at h <;> rename_i hf
  case h_6 => cases h
  all_goals
    cases h
    rw [ho, hf] at hw
    exact ⟨hw, rfl⟩

theorem decodeStore_ok {w : Word} {i : Instr} (ho : opcodeOf w = OpcodeGroup.store.opcode) (h : decodeStore w = .ok i) :
    encode i = w ∧ WellFormed i = true := by
  have hw := encodeS_fields w
  unfold decodeStore at h
  split at h <;> rename_i hf
  case h_4 => cases h
  all_goals
    cases h
    rw [ho, hf] at hw
    exact ⟨hw, rfl⟩

theorem decodeShiftLeftImm_ok {w : Word} {i : Instr} (ho : opcodeOf w = OpcodeGroup.arithImm.opcode)
    (hf : funct3Of w = 0b001#3) (h : decodeShiftLeftImm w = .ok i) : encode i = w ∧ WellFormed i = true := by
  have hw := encodeR_fields w
  unfold decodeShiftLeftImm at h
  split at h <;> rename_i h7
  case h_2 => cases h
  cases h
  rw [ho, hf, h7] at hw
  exact ⟨hw, rfl⟩

theorem decodeShiftRightImm_ok {w : Word} {i : Instr} (ho : opcodeOf w = OpcodeGroup.arithImm.opcode)
    (hf : funct3Of w = 0b101#3) (h : decodeShiftRightImm w = .ok i) : encode i = w ∧ WellFormed i = true := by
  have hw := encodeR_fields w
  unfold decodeShiftRightImm at h
  split at h <;> rename_i h7
  case h_3 => cases h
  all_goals
    cases h
    rw [ho, hf, h7] at hw
    exact ⟨hw, rfl⟩

theorem decodeArithImm_ok {w : Word} {i : Instr} (ho : opcodeOf w = OpcodeGroup.arithImm.opcode)
    (h : decodeArithImm w = .ok i) : encode i = w ∧ WellFormed i = true := by
  have hw := encodeI_fields w
  unfold decodeArithImm at h
  split at h
  case h_2 hf => exact decodeShiftLeftImm_ok ho hf h
  case h_6 hf => exact decodeShiftRightImm_ok ho hf h
  case h_8 h0 h1 h2 h3 h4 h5 h6 =>
    cases h
    rw [ho, funct3_eq_seven h0 h1 h2 h3 h4 h5 h6] at hw
    exact ⟨hw, rfl⟩
  all_goals
    rename_i hf
    cases h
    rw [ho, hf] at hw
    exact ⟨hw, rfl⟩

theorem decodeArithRegBase_ok {w : Word} (ho : opcodeOf w = OpcodeGroup.arithReg.opcode) (h7 : funct7Of w = 0#7) :
    encode (decodeArithRegBase w) = w ∧ WellFormed (decodeArithRegBase w) = true := by
  have hw := encodeR_fields w
  unfold decodeArithRegBase
  split
  case h_8 h0 h1 h2 h3 h4 h5 h6 =>
    rw [ho, h7, funct3_eq_seven h0 h1 h2 h3 h4 h5 h6] at hw
    exact ⟨hw, rfl⟩
  all_goals
    rename_i hf
    rw [ho, h7, hf] at hw
    exact ⟨hw, rfl⟩

theorem decodeArithReg_ok {w : Word} {i : Instr} (ho : opcodeOf w = OpcodeGroup.arithReg.opcode)
    (h : decodeArithReg w = .ok i) : encode i = w ∧ WellFormed i = true := by
  have hw := encodeR_fields w
  unfold decodeArithReg at h
  split at h <;> rename_i h7
  case h_1 => cases h; exact decodeArithRegBase_ok ho h7
  case h_3 => cases h
  split at h <;> rename_i hf
  case h_3 => cases h
  all_goals
    cases h
    rw [ho, hf, h7] at hw
    exact ⟨hw, rfl⟩

/-- What a decoded word is: the canonical word of its instruction, which is well-formed; or a word of one of the three
handlers that ignore bits (R110 to R112). -/
theorem decode_ok_cases {w : Word} {i : Instr} (h : decode w = .ok i) :
    (encode i = w ∧ WellFormed i = true) ∨
    (opcodeOf w = OpcodeGroup.jalr.opcode ∧ i = .jalr (rdOf w) (rs1Of w) (immIOf w)) ∨
    (opcodeOf w = OpcodeGroup.fence.opcode ∧ i = .fence) ∨
    (opcodeOf w = OpcodeGroup.ecall.opcode ∧ i = .ecall) := by
  unfold decode at h
  split at h
  · cases h
  rename_i g hg
  have ho := groupOf_eq_some hg
  cases g
  case load => exact .inl (decodeLoad_ok ho h)
  case arithImm => exact .inl (decodeArithImm_ok ho h)
  case store => exact .inl (decodeStore_ok ho h)
  case arithReg => exact .inl (decodeArithReg_ok ho h)
  case branch => exact .inl (decodeBranch_ok ho h)
  case auipc | lui =>
    cases h
    have hw := encodeU_fields w
    rw [ho] at hw
    exact .inl ⟨hw, immUOf_upper w⟩
  case jal =>
    cases h
    have hw := encodeJ_fields w
    rw [ho] at hw
    exact .inl ⟨hw, immJOf_even w⟩
  case jalr => cases h; exact .inr (.inl ⟨ho, rfl⟩)
  case fence => cases h; exact .inr (.inr (.inl ⟨ho, rfl⟩))
  case ecall => cases h; exact .inr (.inr (.inr ⟨ho, rfl⟩))

/-- An instruction is decoded by the handler of its own group. -/
theorem opcodeOf_of_decode {w : Word} {i : Instr} (h : decode w = .ok i) : opcodeOf w = i.group.opcode := by
  rcases decode_ok_cases h with ⟨rfl, _⟩ | ⟨ho, rfl⟩ | ⟨ho, rfl⟩ | ⟨ho, rfl⟩
  · exact opcodeOf_encode i
  all_goals exact ho

/-- Settles O2: a canonical word is that of a well-formed instruction; JALR, FENCE and ECALL have no condition. -/
theorem decodedInstructionIsWellFormed : Obligations.DecodedInstructionIsWellFormed := by
  intro w i h
  rcases decode_ok_cases h with ⟨_, hwf⟩ | ⟨_, rfl⟩ | ⟨_, rfl⟩ | ⟨_, rfl⟩
  · exact hwf
  all_goals rfl

/-- Settles O3: by the cases of `decode_ok_cases`; JALR, FENCE and ECALL are compared under the mask of the bits they do
not ignore. -/
theorem decodeDropsOnlyIgnoredBits : Obligations.DecodeDropsOnlyIgnoredBits := by
  intro w i h
  rcases decode_ok_cases h with ⟨rfl, _⟩ | ⟨ho, rfl⟩ | ⟨ho, rfl⟩ | ⟨ho, rfl⟩
  · cases i <;> rfl
  · have hw : w &&& 0xFFFF8FFF#32 = encode (.jalr (rdOf w) (rs1Of w) (immIOf w)) := by
      rw [and_0xFFFF8FFF, ho]; rfl
    change encode _ &&& _ = _
    rw [← hw, BitVec.and_assoc, BitVec.and_self]
  · exact (and_0x7F_eq_iff w 0x0F#7 rfl).mpr ho
  · exact (and_0x7F_eq_iff w 0x73#7 rfl).mpr ho

/-! ### The rejected patterns (R113) -/

theorem funct7Of_ne_iff (w : Word) (f7 : BitVec 7) : w.toNat / 2 ^ 25 ≠ f7.toNat ↔ funct7Of w ≠ f7 := by
  rw [← toNat_funct7Of, BitVec.toNat_ne_iff_ne]

theorem funct3Of_ne_iff (w : Word) (f3 : BitVec 3) : w.toNat / 2 ^ 12 % 2 ^ 3 ≠ f3.toNat ↔ funct3Of w ≠ f3 := by
  rw [← toNat_funct3Of, BitVec.toNat_ne_iff_ne]

/-- The `funct3` patterns of R113 (b): Branch 2 and 3, Load 3, 6 and 7, Store 3 to 7. -/
theorem funct3Patterns_iff (w : Word) :
    (w &&& 0x0000607F#32 = 0x00002063#32 ∨ w &&& 0x0000707F#32 = 0x00003003#32 ∨
      w &&& 0x0000607F#32 = 0x00006003#32 ∨ w &&& 0x0000707F#32 = 0x00003023#32 ∨
      w &&& 0x0000407F#32 = 0x00004023#32) ↔
    (opcodeOf w = 0x63#7 ∧ funct3Of w &&& 6#3 = 2#3) ∨ (opcodeOf w = 0x03#7 ∧ funct3Of w = 3#3) ∨
      (opcodeOf w = 0x03#7 ∧ funct3Of w &&& 6#3 = 6#3) ∨ (opcodeOf w = 0x23#7 ∧ funct3Of w = 3#3) ∨
      (opcodeOf w = 0x23#7 ∧ funct3Of w &&& 4#3 = 4#3) :=
  or_congr (and_funct3Mask_eq_iff w 0x63#7 6#3 2#3 rfl rfl) <| or_congr (and_0x707F_eq_iff w 0x03#7 3#3 rfl) <|
    or_congr (and_funct3Mask_eq_iff w 0x03#7 6#3 6#3 rfl rfl) <| or_congr (and_0x707F_eq_iff w 0x23#7 3#3 rfl) <|
      and_funct3Mask_eq_iff w 0x23#7 4#3 4#3 rfl rfl

/-- The immediate-shift patterns of R113 (b). -/
theorem immHi7Patterns_iff (w : Word) :
    ((w &&& 0x0000707F#32 = 0x00001013#32 ∧ w.toNat / 2 ^ 25 ≠ 0) ∨
      (w &&& 0x0000707F#32 = 0x00005013#32 ∧ w.toNat / 2 ^ 25 ≠ 0 ∧ w.toNat / 2 ^ 25 ≠ 0x20)) ↔
    ((opcodeOf w = 0x13#7 ∧ funct3Of w = 1#3) ∧ funct7Of w ≠ 0#7) ∨
      ((opcodeOf w = 0x13#7 ∧ funct3Of w = 5#3) ∧ funct7Of w ≠ 0#7 ∧ funct7Of w ≠ 0x20#7) :=
  or_congr (and_congr (and_0x707F_eq_iff w 0x13#7 1#3 rfl) (funct7Of_ne_iff w 0#7)) <|
    and_congr (and_0x707F_eq_iff w 0x13#7 5#3 rfl) <| and_congr (funct7Of_ne_iff w 0#7) (funct7Of_ne_iff w 0x20#7)

/-- The `funct7` patterns of R113 (b). -/
theorem funct7Patterns_iff (w : Word) :
    ((w &&& 0x0000007F#32 = 0x00000033#32 ∧ w.toNat / 2 ^ 25 ≠ 0 ∧ w.toNat / 2 ^ 25 ≠ 0x20) ∨
      (w &&& 0xFE00007F#32 = 0x40000033#32 ∧ w.toNat / 2 ^ 12 % 8 ≠ 0 ∧ w.toNat / 2 ^ 12 % 8 ≠ 5)) ↔
    (opcodeOf w = 0x33#7 ∧ funct7Of w ≠ 0#7 ∧ funct7Of w ≠ 0x20#7) ∨
      ((opcodeOf w = 0x33#7 ∧ funct7Of w = 0x20#7) ∧ funct3Of w ≠ 0#3 ∧ funct3Of w ≠ 5#3) :=
  or_congr (and_congr (and_0x7F_eq_iff w 0x33#7 rfl) <| and_congr (funct7Of_ne_iff w 0#7) (funct7Of_ne_iff w 0x20#7)) <|
    and_congr (and_0xFE00007F_eq_iff w 0x33#7 0x20#7 rfl) <|
      and_congr (funct3Of_ne_iff w 0#3) (funct3Of_ne_iff w 5#3)

/-! ### What a handler refuses (R105 to R109)

A handler answers InvalidEncoding with the offending field when its test, written as in R113, holds, and an instruction
when it does not. -/

theorem funct3_values (f : BitVec 3) :
    f = 0#3 ∨ f = 1#3 ∨ f = 2#3 ∨ f = 3#3 ∨ f = 4#3 ∨ f = 5#3 ∨ f = 6#3 ∨ f = 7#3 := by
  revert f; decide

theorem decodeBranch_outcome (w : Word) :
    if funct3Of w &&& 6#3 = 2#3 then decodeBranch w = .error (.invalidEncoding .funct3 (funct3Of w).toNat)
    else ∃ i, decodeBranch w = .ok i := by
  rcases funct3_values (funct3Of w) with h | h | h | h | h | h | h | h <;> simp [decodeBranch, h]

theorem decodeLoad_outcome (w : Word) :
    if funct3Of w = 3#3 ∨ funct3Of w &&& 6#3 = 6#3 then
      decodeLoad w = .error (.invalidEncoding .funct3 (funct3Of w).toNat)
    else ∃ i, decodeLoad w = .ok i := by
  rcases funct3_values (funct3Of w) with h | h | h | h | h | h | h | h <;> simp [decodeLoad, h]

theorem decodeStore_outcome (w : Word) :
    if funct3Of w = 3#3 ∨ funct3Of w &&& 4#3 = 4#3 then
      decodeStore w = .error (.invalidEncoding .funct3 (funct3Of w).toNat)
    else ∃ i, decodeStore w = .ok i := by
  rcases funct3_values (funct3Of w) with h | h | h | h | h | h | h | h <;> simp [decodeStore, h]

theorem decodeShiftLeftImm_outcome (w : Word) :
    if funct7Of w ≠ 0#7 then decodeShiftLeftImm w = .error (.invalidEncoding .immHi7 (funct7Of w).toNat)
    else ∃ i, decodeShiftLeftImm w = .ok i := by
  by_cases h0 : funct7Of w = 0#7 <;> simp [decodeShiftLeftImm, h0]

theorem decodeShiftRightImm_outcome (w : Word) :
    if funct7Of w ≠ 0#7 ∧ funct7Of w ≠ 0x20#7 then
      decodeShiftRightImm w = .error (.invalidEncoding .immHi7 (funct7Of w).toNat)
    else ∃ i, decodeShiftRightImm w = .ok i := by
  by_cases h0 : funct7Of w = 0#7
  · simp [decodeShiftRightImm, h0]
  by_cases h20 : funct7Of w = 0x20#7 <;> simp [decodeShiftRightImm, h0, h20]

theorem decodeArithImm_outcome (w : Word) :
    if (funct3Of w = 1#3 ∧ funct7Of w ≠ 0#7) ∨ (funct3Of w = 5#3 ∧ funct7Of w ≠ 0#7 ∧ funct7Of w ≠ 0x20#7) then
      decodeArithImm w = .error (.invalidEncoding .immHi7 (funct7Of w).toNat)
    else ∃ i, decodeArithImm w = .ok i := by
  rcases funct3_values (funct3Of w) with h | h | h | h | h | h | h | h
  case inr.inl => simpa [decodeArithImm, h] using decodeShiftLeftImm_outcome w
  case inr.inr.inr.inr.inr.inl => simpa [decodeArithImm, h] using decodeShiftRightImm_outcome w
  all_goals simp [decodeArithImm, h]

theorem decodeArithReg_outcome (w : Word) :
    if (funct7Of w ≠ 0#7 ∧ funct7Of w ≠ 0x20#7) ∨ (funct7Of w = 0x20#7 ∧ funct3Of w ≠ 0#3 ∧ funct3Of w ≠ 5#3) then
      decodeArithReg w = .error (.invalidEncoding .funct7 (funct7Of w).toNat)
    else ∃ i, decodeArithReg w = .ok i := by
  by_cases h0 : funct7Of w = 0#7
  · simp [decodeArithReg, h0]
  by_cases h20 : funct7Of w = 0x20#7
  · rcases funct3_values (funct3Of w) with h | h | h | h | h | h | h | h <;> simp [decodeArithReg, h20, h]
  · simp [decodeArithReg, h0, h20]

end Sys2Proof

namespace Sys2Proof.Machine

/-! ### What becomes of every word (R113) -/

theorem raisedBy_of_decode_error {w : Word} {r : Reject} (h : decode w = .error r) (p : Word) :
    raisedBy p w = some (rejectFault p r) := by
  rw [raisedBy, h]

/-- A word that decodes raises nothing and is executed. -/
theorem executes_of_decode_ok {w : Word} (h : ∃ i, decode w = .ok i) (p : Word) :
    raisedBy p w = none ∧ ∃ i, decode w = .ok i ∧ ∀ s : State, executeWord p w s = exec i s := by
  obtain ⟨i, hd⟩ := h
  exact ⟨by rw [raisedBy, hd], i, hd, executeWord_of_decode_ok hd p⟩

/-- What a handler makes of a word of its group is what becomes of the word. -/
theorem raises_or_executes {w : Word} {g : OpcodeGroup} (ho : opcodeOf w = g.opcode) {c : Prop} [Decidable c]
    {f : EncodingField} {v : Nat}
    (h : if c then decodeGroup g w = .error (.invalidEncoding f v) else ∃ i, decodeGroup g w = .ok i) (p : Word) :
    if c then raisedBy p w = some (.invalidEncoding f v p)
    else raisedBy p w = none ∧ ∃ i, decode w = .ok i ∧ ∀ s : State, executeWord p w s = exec i s := by
  rw [← decode_of_group w g ho] at h
  split_ifs at h ⊢
  · exact raisedBy_of_decode_error h p
  · exact executes_of_decode_ok h p

/-- The opcodes outside the dispatch table (R102, R104). -/
theorem groupOf_eq_none {op : BitVec 7} (h : groupOf op = none) :
    op.toNat ∉ [0x03, 0x0F, 0x13, 0x17, 0x23, 0x33, 0x37, 0x63, 0x67, 0x6F, 0x73] := by
  revert op
  decide

/-- Settles O4: the masks test fields (`funct3Patterns_iff`, `immHi7Patterns_iff`, `funct7Patterns_iff`), so the opcode
decides which of them can hold; the outcome of the group's handler then says what becomes of the word. -/
theorem everyWordExecutesOrRaises : Obligations.EveryWordExecutesOrRaises := by
  intro p w
  have hop : w.toNat % 128 = (opcodeOf w).toNat := (toNat_opcodeOf w).symm
  have hf3 : w.toNat / 2 ^ 12 % 8 = (funct3Of w).toNat := (toNat_funct3Of w).symm
  simp only [funct3Patterns_iff, immHi7Patterns_iff, funct7Patterns_iff]
  rw [hop, hf3, ← toNat_funct7Of]
  cases hg : groupOf (opcodeOf w) with
  | none =>
    rw [if_pos (groupOf_eq_none hg), BitVec.ofNat_toNat, BitVec.setWidth_eq]
    exact raisedBy_of_decode_error (by rw [decode, hg]) p
  | some g =>
    have ho := groupOf_eq_some hg
    cases g
    case branch => simpa [ho, OpcodeGroup.opcode] using raises_or_executes ho (decodeBranch_outcome w) p
    case load => simpa [ho, OpcodeGroup.opcode] using raises_or_executes ho (decodeLoad_outcome w) p
    case store => simpa [ho, OpcodeGroup.opcode] using raises_or_executes ho (decodeStore_outcome w) p
    case arithImm => simpa [ho, OpcodeGroup.opcode] using raises_or_executes ho (decodeArithImm_outcome w) p
    case arithReg => simpa [ho, OpcodeGroup.opcode] using raises_or_executes ho (decodeArithReg_outcome w) p
    all_goals simpa [ho, OpcodeGroup.opcode] using executes_of_decode_ok ⟨_, decode_of_group w _ ho⟩ p

/-! ### The words that halt (R112, R248) -/

/-- The words of ECALL are those of its opcode (R112). -/
theorem decode_eq_ecall_iff (w : Word) : decode w = .ok .ecall ↔ w.toNat % 128 = 0x73 :=
  ⟨fun h => (opcodeOf_eq_iff w _).mp (opcodeOf_of_decode h), opcodeSelects_of_group .ecall (fun _ => rfl) w⟩

/-- Of all instructions only ECALL halts a running hart. -/
theorem exec_halts_iff {i : Instr} {s t : State} (hr : s.run = .running) (h : exec i s = .next t) :
    t.run = .halted ↔ i = .ecall := by
  by_cases hi : i = .ecall
  · subst hi; cases h; simp
  · simp [(exec_effect h).run_eq hi, hr, hi]

/-- Settles O47: a hold and an error leave `run` alone, and the executed word halts exactly when it is ECALL. -/
theorem onlyEcallWordsHalt : Obligations.OnlyEcallWordsHalt := by
  intro s t _ h
  obtain ⟨_, hrun, hstep⟩ := step_cases h
  rcases hstep with ⟨hw, rfl⟩ | ⟨f, hw, rfl⟩ | ⟨w, s', r, hw, hd, rfl⟩ | ⟨w, s', i, hw, hd, hex⟩
  · simp [hrun, hw]
  · simp [hrun, hw]
  · obtain ⟨_, hrun', _⟩ := State.fetch_value_record hw
    simp [hw, hrun', hrun, ← decode_eq_ecall_iff, hd]
  · obtain ⟨_, hrun', _⟩ := State.fetch_value_record hw
    simp [exec_halts_iff (hrun'.trans hrun) hex, hw, ← decode_eq_ecall_iff, hd]

end Sys2Proof.Machine
end

section
/-! Proofs of the statements of 40_upper_immediate: LUI and AUIPC (R130, R131) and the constants they build (R132). -/

namespace Sys2Proof.Machine

/-! ### LUI and AUIPC (R130, R131) -/

/-- An instruction that ends in `finish` writes its register, falls through and changes nothing else. -/
theorem State.finish_registerInstr {s : State} {i : Instr} {rd : RegIdx} {v v' : Word}
    (hi : exec i s = .next (s.finish rd v)) (hv : v = v') : RegisterInstr i s rd v' (s.pc + 4#32) := by
  subst hv
  refine ⟨_, hi, s.writeReg_writesRegister rd v, ?_⟩
  simp [CompletesAt, SameRecord, SameCells, SamePort]

/-- Settles O19: neither handler tests a field, so the opcode alone selects, and both instructions end in `finish`. -/
theorem upperImmediateResults : Obligations.UpperImmediateResults := by
  refine ⟨opcodeSelects_of_group .lui fun _ => rfl, opcodeSelects_of_group .auipc fun _ => rfl, fun s rd imm => ⟨?_, ?_⟩⟩
  · have hvalue : imm = BitVec.ofNat 32 imm.toNat := by simp
    exact State.finish_registerInstr rfl hvalue
  · have hvalue : imm + s.pc = BitVec.ofNat 32 ((imm.toNat + s.pc.toNat) % 2 ^ 32) := BitVec.eq_of_toNat_eq (by simp)
    exact State.finish_registerInstr rfl hvalue

/-! ### LUI then ADDI (R132) -/

/-- The low half `lo` of a constant: ADDI's immediate. -/
def lowPart (c : Word) : BitVec 12 := c.extractLsb' 0 12

/-- The high half `hi` of a constant: LUI's immediate, what is left when the sign-extended `lo` is taken away. -/
def highPart (c : Word) : Word := mod32 ((c.toNat : Int) - sextInt (lowPart c))

/-- The two halves add up to the constant. -/
theorem highPart_add_sext_lowPart (c : Word) : highPart c + sext (lowPart c) = c := by
  rw [highPart, sext_eq_mod32 (by decide), ← mod32_add, sub_add_cancel, mod32_toNat]

/-- `lo` as an integer: the low 12 bits, less `2^12` when bit 11 is set. -/
theorem sextInt_lowPart (c : Word) :
    sextInt (lowPart c) = (c.toNat : Int) % 2 ^ 12 - (c.getLsbD 11).toNat * 2 ^ 12 := by
  have hlow : (lowPart c).toNat = c.toNat % 2 ^ 12 := by simp [lowPart]
  have hbit : (c.getLsbD 11).toNat = c.toNat / 2 ^ 11 % 2 := by
    rw [BitVec.getLsbD, Nat.toNat_testBit]
  rw [sextInt, hlow, hbit]
  split <;> omega

/-- `hi` as a number: twelve zero bits below the top 20 bits of the constant, with one carried in when bit 11 is set. -/
theorem toNat_highPart (c : Word) :
    (highPart c).toNat = (c.toNat / 2 ^ 12 + (c.getLsbD 11).toNat) % 2 ^ 20 * 2 ^ 12 := by
  rw [highPart, mod32, sextInt_lowPart, BitVec.toNat_ofInt]
  omega

/-- An upper immediate is a multiple of `2^12` (R98). -/
theorem upperImm_iff (imm : BitVec 32) : upperImm imm = true ↔ imm.toNat % 2 ^ 12 = 0 := by
  rw [upperImm, beq_iff_eq, ← BitVec.toNat_inj]
  simp

theorem upperImm_highPart (c : Word) : upperImm (highPart c) = true := by
  rw [upperImm_iff, toNat_highPart, Nat.mul_mod_left]

/-- ADDI adds `lo` to the `hi` that LUI left in the register, which is not `x[0]`. -/
theorem State.readReg_lui_addi (s : State) {rd : RegIdx} (hrd : rd ≠ 0#5) (hi : Word) (lo : BitVec 12) :
    ∃ t u, exec (.lui rd hi) s = .next t ∧ exec (.addi rd rd lo) t = .next u ∧ u.readReg rd = hi + sext lo := by
  refine ⟨_, _, rfl, rfl, ?_⟩
  simp [State.readReg_finish, hrd]

/-- Settles O20: the halves add up (`highPart_add_sext_lowPart`), and `toNat_highPart` says which bits `hi` has. -/
theorem luiThenAddiBuildsConstant : Obligations.LuiThenAddiBuildsConstant := by
  intro s rd c hrd
  refine ⟨upperImm_highPart c, fun hbit => ?_, ?_⟩
  · change (highPart c).toNat / 2 ^ 12 = _
    rw [toNat_highPart, hbit, Bool.toNat_true, Nat.mul_div_cancel _ (by decide)]
  · obtain ⟨t, u, ht, hu, hread⟩ := s.readReg_lui_addi hrd (highPart c) (lowPart c)
    exact ⟨t, u, ht, hu, hread.trans (highPart_add_sext_lowPart c)⟩

end Sys2Proof.Machine
end

section
/-! Proofs of the statements of 41_jumps: JAL (R141) and JALR (R142). -/

namespace Sys2Proof.Machine

/-! ### Targets and the link as integers modulo 2^32 -/

/-- Adding a sign-extended immediate to a word is integer addition reduced modulo 2^32 (R12, R13). -/
theorem add_sext_eq_mod32 {n : Nat} (hn : 1 ≤ n) (a : Word) (imm : BitVec n) :
    a + sext imm = mod32 ((a.toNat : Int) + sextInt imm) := by
  rw [mod32_add, mod32_toNat, sext_eq_mod32 hn]

/-- The link wraps at the top of the address space (R27, R140). -/
theorem State.nextPc_eq_mod32 (s : State) : s.nextPc = mod32 ((s.pc.toNat : Int) + 4) := by
  rw [mod32_add, mod32_toNat]
  rfl

theorem State.relativeTarget_eq_mod32 {n : Nat} (hn : 1 ≤ n) (s : State) (imm : BitVec n) :
    s.relativeTarget imm = mod32 ((s.pc.toNat : Int) + sextInt imm) := add_sext_eq_mod32 hn s.pc imm

/-- The sum is the target as it stands: no bit of it is cleared (R142). -/
theorem State.indirectTarget_eq_mod32 (s : State) (rs1 : RegIdx) (imm : BitVec 12) :
    s.indirectTarget rs1 imm = mod32 (s.unsignedReg rs1 + sextInt imm) :=
  add_sext_eq_mod32 (by decide) (s.readReg rs1) imm

/-! ### JAL and JALR -/

/-- An instruction that ends in `jumpAndLink` writes the link, goes on at the target and changes nothing else (R140). -/
theorem State.jumpAndLink_registerInstr {s : State} {i : Instr} {rd : RegIdx} {target target' : Word}
    (hi : exec i s = .next (s.jumpAndLink rd target)) (ht : target = target') :
    RegisterInstr i s rd (mod32 ((s.pc.toNat : Int) + 4)) target' := by
  subst ht
  rw [← s.nextPc_eq_mod32]
  refine ⟨_, hi, s.writeReg_writesRegister rd s.nextPc, ?_⟩
  simp [CompletesAt, SameRecord, SameCells, SamePort]

/-- Settles O21: the handler tests no field, so the opcode alone selects, and the target is relative to `pc`. -/
theorem jalLinksAndJumps : Obligations.JalLinksAndJumps :=
  ⟨opcodeSelects_of_group .jal fun _ => rfl, fun s _ imm =>
    State.jumpAndLink_registerInstr rfl (s.relativeTarget_eq_mod32 (by decide) imm)⟩

/-- Settles O22: the handler tests no field, so the opcode alone selects. The target is taken from the state before the
link is written, so `rd = rs1` is no case of its own. -/
theorem jalrLinksAndJumpsKeepingBitZero : Obligations.JalrLinksAndJumpsKeepingBitZero :=
  ⟨opcodeSelects_of_group .jalr fun _ => rfl, fun s _ rs1 imm =>
    State.jumpAndLink_registerInstr rfl (s.indirectTarget_eq_mod32 rs1 imm)⟩

end Sys2Proof.Machine
end

section
/-! Proofs of the statement of 42_branches: the six branches (R150 to R156). -/

namespace Sys2Proof.Machine

/-! ### Selection by `funct3` (R105 to R108) -/

/-- A handler that answers `i w` for every word with the value `f3` of `funct3` makes that value select `i` under its
opcode. -/
theorem funct3Selects_of_group (g : OpcodeGroup) (f3 : BitVec 3) {i : Word → Instr}
    (h : ∀ w, funct3Of w = f3 → decodeGroup g w = .ok (i w)) : Funct3Selects g.opcode.toNat f3.toNat i := by
  intro w hop hf3
  have hf : funct3Of w = f3 := BitVec.eq_of_toNat_eq ((toNat_funct3Of w).trans hf3)
  exact (decode_of_group w g ((opcodeOf_eq_iff w _).mpr hop)).trans (h w hf)

/-! ### The conditions as comparisons of integers -/

theorem State.readReg_beq_iff (s : State) (r q : RegIdx) :
    (s.readReg r == s.readReg q) = true ↔ s.unsignedReg r = s.unsignedReg q := by
  rw [beq_iff_eq, State.unsignedReg, State.unsignedReg, Int.natCast_inj, BitVec.toNat_inj]

theorem State.ltSigned_readReg_iff (s : State) (r q : RegIdx) :
    ltSigned (s.readReg r) (s.readReg q) = true ↔ s.signedReg r < s.signedReg q := BitVec.slt_iff_toInt_lt

theorem State.ltUnsigned_readReg_iff (s : State) (r q : RegIdx) :
    ltUnsigned (s.readReg r) (s.readReg q) = true ↔ s.unsignedReg r < s.unsignedReg q := by
  rw [ltUnsigned, BitVec.ult_iff_lt, BitVec.lt_def, State.unsignedReg, State.unsignedReg, Int.ofNat_lt]

/-- BNE, BGE and BGEU test the exact complement of a condition. -/
theorem not_eq_true_iff_of_iff {c : Bool} {p : Prop} (h : c = true ↔ p) : (!c) = true ↔ ¬ p := by
  rw [Bool.not_eq_true', ← Bool.not_eq_true, h]

/-! ### What a branch does -/

/-- An instruction that ends in `branch` goes on at the target its condition decides on and changes nothing else (R150). -/
theorem State.branch_pcOnlyInstr {s : State} {i : Instr} {taken : Bool} {imm : BitVec 13} {p : Prop} [Decidable p]
    (hi : exec i s = .next (s.branch taken imm)) (hp : taken = true ↔ p) :
    PcOnlyInstr i s (if p then mod32 ((s.pc.toNat : Int) + sextInt imm) else mod32 ((s.pc.toNat : Int) + 4)) := by
  have hpc : (s.branch taken imm).pc =
      if p then mod32 ((s.pc.toNat : Int) + sextInt imm) else mod32 ((s.pc.toNat : Int) + 4) := by
    rw [← s.relativeTarget_eq_mod32 (by decide) imm, ← s.nextPc_eq_mod32, s.branch_pc]
    exact if_congr hp rfl rfl
  refine ⟨_, hi, ⟨hpc, ?_⟩, ?_⟩ <;> simp [SameRecord, SameRegisters, SameCells, SamePort]

/-- Settles O23: the Branch handler tests `funct3` alone, and each instruction ends in `branch` with its condition, which
is a comparison of the registers as integers or the complement of one. -/
theorem branchesFollowTheirConditions : Obligations.BranchesFollowTheirConditions := by
  refine ⟨?beq, ?bne, ?blt, ?bge, ?bltu, ?bgeu, fun s rs1 rs2 imm => ?conditions⟩
  case conditions =>
    have heq := s.readReg_beq_iff rs1 rs2
    have hlt := s.ltSigned_readReg_iff rs1 rs2
    have hltu := s.ltUnsigned_readReg_iff rs1 rs2
    have hge := (not_eq_true_iff_of_iff hlt).trans not_lt
    have hgeu := (not_eq_true_iff_of_iff hltu).trans not_lt
    exact ⟨State.branch_pcOnlyInstr rfl heq, State.branch_pcOnlyInstr rfl (not_eq_true_iff_of_iff heq),
      State.branch_pcOnlyInstr rfl hlt, State.branch_pcOnlyInstr rfl hge,
      State.branch_pcOnlyInstr rfl hltu, State.branch_pcOnlyInstr rfl hgeu⟩
  case beq => exact funct3Selects_of_group .branch 0#3 fun w hf => by simp [decodeGroup, decodeBranch, hf]
  case bne => exact funct3Selects_of_group .branch 1#3 fun w hf => by simp [decodeGroup, decodeBranch, hf]
  case blt => exact funct3Selects_of_group .branch 4#3 fun w hf => by simp [decodeGroup, decodeBranch, hf]
  case bge => exact funct3Selects_of_group .branch 5#3 fun w hf => by simp [decodeGroup, decodeBranch, hf]
  case bltu => exact funct3Selects_of_group .branch 6#3 fun w hf => by simp [decodeGroup, decodeBranch, hf]
  case bgeu => exact funct3Selects_of_group .branch 7#3 fun w hf => by simp [decodeGroup, decodeBranch, hf]

end Sys2Proof.Machine
end

section
/-! Proofs of the statements of 43_loads: the five loads (R165 to R171), whatever `MemRead` answers and from storage. -/

namespace Sys2Proof.Machine

/-! ### What `MemRead` leaves (R55) -/

/-- A read that answers a value consumes at most a character and touches nothing else. -/
theorem State.memRead_value_state {s s' : State} {a v : Word} {n : AccessWidth} (h : s.memRead a n = .value v s') :
    s' = { s with inPos := s'.inPos } := by
  rcases s.memRead_cases a n with ⟨_, hr⟩ | ⟨_, _, _, hr⟩ | ⟨c, _, _, _, hr⟩ | ⟨_, _, hr⟩
  · simp [hr] at h
  · simp [hr] at h
  · rw [hr] at h; cases h; rfl
  · rw [hr] at h; cases h; rfl

/-- A read from storage answers the sum over the cells and leaves the state. -/
theorem State.memRead_storage_cellSum {s : State} {a : Word} {n : AccessWidth} (hallowed : s.accessAllowed a n.bytes)
    (ha : a ≠ Config.ioPortAddr) : s.memRead a n = .value (BitVec.ofNat 32 (cellSum s.mem a n.bytes)) s := by
  rw [State.memRead_storage (s.alignmentFails_eq_false a n hallowed) ha, Memory.readValue_eq_cellSum]

/-- A byte passes the alignment test at every address (R59). -/
theorem State.accessAllowed_byte (s : State) (a : Word) : s.accessAllowed a AccessWidth.byte.bytes :=
  (s.accessAllowed_iff a .byte).mpr (s.alignmentFails_byte a)

/-- The sum over `k` cells has `8k` bits. -/
theorem cellSum_lt (m : Memory) (a : Word) (k : Nat) : cellSum m a k < 256 ^ k := by
  induction k with
  | zero => exact Nat.one_pos
  | succ k ih =>
    have hcell : (m.read ((a.toNat + k) % 2 ^ 32)).toNat ≤ 255 := Nat.le_of_lt_succ (BitVec.isLt _)
    calc cellSum m a (k + 1)
        = cellSum m a k + (m.read ((a.toNat + k) % 2 ^ 32)).toNat * 256 ^ k := rfl
      _ < 256 ^ k + 255 * 256 ^ k := Nat.add_lt_add_of_lt_of_le ih (Nat.mul_le_mul_right _ hcell)
      _ = 256 ^ (k + 1) := by ring

/-! ### The extension of the value read (R166) -/

/-- Sign extension reads the low `8n` bits as a signed integer; at 32 bits it changes nothing (R169). -/
theorem extendLoaded_sign (n : AccessWidth) (v : Word) :
    extendLoaded n .sign v = mod32 (sextInt (BitVec.ofNat (8 * n.bytes) v.toNat)) := by
  rw [← sext_eq_mod32 (by cases n <;> decide), BitVec.ofNat_toNat]
  cases n with
  | byte => rfl
  | half => rfl
  | word => simp [extendLoaded, sext, AccessWidth.bytes]

/-- Zero extension is the remainder modulo `2^(8n)`. -/
theorem extendLoaded_zero (n : AccessWidth) (v : Word) :
    extendLoaded n .zero v = BitVec.ofNat 32 (v.toNat % 2 ^ (8 * n.bytes)) := by
  apply BitVec.eq_of_toNat_eq
  cases n with
  | byte => simp [extendLoaded, AccessWidth.bytes]
  | half => simp [extendLoaded, AccessWidth.bytes]
  | word => simpa [extendLoaded, AccessWidth.bytes] using (Nat.mod_eq_of_lt v.isLt).symm

/-- Sign extension of a sum of cells: the sum fits the width, so the reduction to a word loses none of its bits. -/
theorem extendLoaded_sign_cellSum (m : Memory) (a : Word) (n : AccessWidth) :
    extendLoaded n .sign (BitVec.ofNat 32 (cellSum m a n.bytes)) =
      mod32 (sextInt (BitVec.ofNat (8 * n.bytes) (cellSum m a n.bytes))) := by
  have hwidth : 8 * n.bytes ≤ 32 := by have := n.bytes_le; omega
  rw [extendLoaded_sign, BitVec.ofNat_toNat, BitVec.setWidth_ofNat_of_le hwidth]

/-- Zero extension of a sum of cells leaves it. -/
theorem extendLoaded_zero_cellSum (m : Memory) (a : Word) (n : AccessWidth) :
    extendLoaded n .zero (BitVec.ofNat 32 (cellSum m a n.bytes)) = BitVec.ofNat 32 (cellSum m a n.bytes) := by
  have hlt : cellSum m a n.bytes < 2 ^ (8 * n.bytes) := by rw [pow_mul]; exact cellSum_lt m a n.bytes
  have hword : 2 ^ (8 * n.bytes) ≤ 2 ^ 32 := by cases n <;> decide
  rw [extendLoaded_zero, BitVec.toNat_ofNat, Nat.mod_eq_of_lt (hlt.trans_le hword), Nat.mod_eq_of_lt hlt]

/-! ### The five loads (R166) -/

/-- A load whose read answers a value writes it, extended, falls through and changes nothing else but what the read
consumed. -/
theorem State.load_loadInstr {s s' : State} {i : Instr} {n : AccessWidth} {e : Extension} {rd rs1 : RegIdx}
    {imm : BitVec 12} {v v' : Word} (hi : exec i s = .next (s.load n e rd rs1 imm))
    (hr : s.memRead (s.effectiveAddress rs1 imm) n = .value v s') (hv : extendLoaded n e v = v') :
    LoadInstr i s s' rd v' := by
  have hload : s.load n e rd rs1 imm = s'.finish rd v' := by rw [State.load, hr, ← hv]
  refine ⟨_, hi, ?_⟩
  rw [hload, State.memRead_value_state hr]
  refine ⟨State.writeReg_writesRegister { s with inPos := s'.inPos } rd v', ?_⟩
  simp [CompletesAt, SameRecord, SameCells]

/-- A load from storage writes the extended sum over the cells and consumes no character. -/
theorem State.load_storage_registerInstr {s : State} {i : Instr} {n : AccessWidth} {e : Extension} {rd rs1 : RegIdx}
    {imm : BitVec 12} {v : Word} (hi : exec i s = .next (s.load n e rd rs1 imm))
    (ha : s.effectiveAddress rs1 imm ≠ Config.ioPortAddr)
    (hallowed : s.accessAllowed (s.effectiveAddress rs1 imm) n.bytes)
    (hv : extendLoaded n e (BitVec.ofNat 32 (cellSum s.mem (s.effectiveAddress rs1 imm) n.bytes)) = v) :
    RegisterInstr i s rd v (s.pc + 4#32) := by
  obtain ⟨t, ht, hreg, hpc, hcells, hport⟩ :=
    State.load_loadInstr hi (State.memRead_storage_cellSum hallowed ha) hv
  exact ⟨t, ht, hreg, hpc, hcells, hport⟩

/-- Settles O25: the Load handler tests `funct3` alone, and each load is `State.load` at its width and extension. -/
theorem loadsWriteWhatMemReadReturns : Obligations.LoadsWriteWhatMemReadReturns := by
  refine ⟨funct3Selects_of_group .load 0#3 fun w hf => ?_, funct3Selects_of_group .load 1#3 fun w hf => ?_,
    funct3Selects_of_group .load 2#3 fun w hf => ?_, funct3Selects_of_group .load 4#3 fun w hf => ?_,
    funct3Selects_of_group .load 5#3 fun w hf => ?_, fun s s' rd rs1 imm v => ?results⟩
  case results =>
    intro ea
    have hea : s.effectiveAddress rs1 imm = ea := effectiveAddressWraps s rs1 imm
    rw [← hea]
    exact ⟨fun hr => ⟨State.load_loadInstr rfl hr (extendLoaded_sign .byte v),
        State.load_loadInstr rfl hr (extendLoaded_zero .byte v)⟩,
      fun hr => ⟨State.load_loadInstr rfl hr (extendLoaded_sign .half v),
        State.load_loadInstr rfl hr (extendLoaded_zero .half v)⟩,
      fun hr => State.load_loadInstr (e := .sign) rfl hr rfl⟩
  all_goals simp [decodeGroup, decodeLoad, hf]

/-- Settles O26: each load is `State.load` at its width and extension, and a byte passes the alignment test anywhere. -/
theorem loadsFromStorage : Obligations.LoadsFromStorage := by
  intro s rd rs1 imm ea
  refine ⟨effectiveAddressWraps s rs1 imm, fun ha => ?_⟩
  have hbyte := s.accessAllowed_byte ea
  exact ⟨State.load_storage_registerInstr rfl ha hbyte (extendLoaded_sign_cellSum s.mem ea .byte),
    State.load_storage_registerInstr rfl ha hbyte (extendLoaded_zero_cellSum s.mem ea .byte),
    fun hhalf => ⟨State.load_storage_registerInstr rfl ha hhalf (extendLoaded_sign_cellSum s.mem ea .half),
      State.load_storage_registerInstr rfl ha hhalf (extendLoaded_zero_cellSum s.mem ea .half)⟩,
    fun hword => State.load_storage_registerInstr (n := .word) (e := .sign) rfl ha hword rfl⟩

end Sys2Proof.Machine
end

section
/-! Proofs of the statement of 44_stores: the three stores to storage (R180 to R184). -/

namespace Sys2Proof.Machine

/-- Byte `i` of a value is its quotient by `256^i`, reduced to 8 bits (R182 to R184). -/
theorem byteOf_eq_div (v : Word) (i : Nat) : byteOf v i = BitVec.ofNat 8 (v.toNat / 256 ^ i) := by
  apply BitVec.eq_of_toNat_eq
  simp [byteOf, Nat.shiftRight_eq_div_pow, pow_mul]

theorem State.store_storage {s : State} {n : AccessWidth} {rs1 : RegIdx} {imm : BitVec 12} (rs2 : RegIdx)
    (ha : s.effectiveAddress rs1 imm ≠ Config.ioPortAddr)
    (hallowed : s.accessAllowed (s.effectiveAddress rs1 imm) n.bytes) :
    s.store n rs1 rs2 imm =
      { s with mem := s.mem.writeValue (s.effectiveAddress rs1 imm) n (s.readReg rs2) }.retire .fallThrough := by
  rw [State.store, State.memWrite_storage _ (s.alignmentFails_eq_false _ n hallowed) ha]

/-- An instruction that ends in `store` at a storage address writes the low bytes of `x[rs2]` to the cells of its width and
changes nothing else (R181). -/
theorem State.store_storage_storeInstr {s : State} {i : Instr} {n : AccessWidth} {rs1 rs2 : RegIdx} {imm : BitVec 12}
    (hi : exec i s = .next (s.store n rs1 rs2 imm)) (hwf : s.mem.wf = true)
    (ha : s.effectiveAddress rs1 imm ≠ Config.ioPortAddr)
    (hallowed : s.accessAllowed (s.effectiveAddress rs1 imm) n.bytes) :
    StoreInstr i s (s.effectiveAddress rs1 imm) n.bytes (s.readReg rs2) := by
  refine ⟨_, hi, ?_⟩
  rw [State.store_storage rs2 ha hallowed]
  refine ⟨?completes, ?registers, ?port, fun k hk => ?written, fun a hout => ?unwritten⟩
  case written =>
    rw [State.retire_mem, ← byteAddr_eq, Memory.read_writeValue _ n _ hwf k hk, byteOf_eq_div]
  case unwritten =>
    exact Memory.read_writeValue_ne _ _ n _ a fun k hk => byteAddr_eq _ k ▸ hout k hk
  all_goals simp [CompletesAt, SameRecord, SameRegisters, SamePort]

/-- Settles O30: the Store handler tests `funct3` alone, each store is `State.store` at its width, and a byte passes the
alignment test anywhere. -/
theorem storesToStorage : Obligations.StoresToStorage := by
  refine ⟨?sb, ?sh, ?sw, fun s rs1 rs2 imm hwf => ⟨effectiveAddressWraps s rs1 imm, fun ha => ?storage⟩⟩
  case sb => exact funct3Selects_of_group .store 0#3 fun w hf => by simp [decodeGroup, decodeStore, hf]
  case sh => exact funct3Selects_of_group .store 1#3 fun w hf => by simp [decodeGroup, decodeStore, hf]
  case sw => exact funct3Selects_of_group .store 2#3 fun w hf => by simp [decodeGroup, decodeStore, hf]
  case storage =>
    exact ⟨State.store_storage_storeInstr (n := .byte) rfl hwf ha (s.accessAllowed_byte _),
      State.store_storage_storeInstr (n := .half) rfl hwf ha,
      State.store_storage_storeInstr (n := .word) rfl hwf ha⟩

end Sys2Proof.Machine
end

section
/-! Proofs of the statements of 45_arith_imm: the nine register-immediate operations (R191 to R199). -/

namespace Sys2Proof.Machine

/-! ### Selection by `funct3` and bits 31 to 25 (R108, R109) -/

/-- A handler that answers `i w` for every word with the values `f3` of `funct3` and `f7` of bits 31 to 25 makes the two
values together select `i` under its opcode. -/
theorem funct7Selects_of_group (g : OpcodeGroup) (f3 : BitVec 3) (f7 : BitVec 7) {i : Word → Instr}
    (h : ∀ w, funct3Of w = f3 → funct7Of w = f7 → decodeGroup g w = .ok (i w)) :
    Funct7Selects g.opcode.toNat f3.toNat f7.toNat i := by
  intro w hop hf3 hf7
  have h3 : funct3Of w = f3 := BitVec.eq_of_toNat_eq ((toNat_funct3Of w).trans hf3)
  have h7 : funct7Of w = f7 := BitVec.eq_of_toNat_eq ((toNat_funct7Of w).trans hf7)
  exact (decode_of_group w g ((opcodeOf_eq_iff w _).mpr hop)).trans (h w h3 h7)

/-! ### Comparisons with a sign-extended immediate (R192, R193) -/

/-- A comparison result is the "1 if ... else 0" of the spec once its condition is that of the spec. -/
theorem boolWord_eq_oneIf {c : Bool} {p : Prop} [Decidable p] (h : c = true ↔ p) : boolWord c = oneIf p :=
  if_congr h rfl rfl

/-- Sign extension keeps the signed value (R12). -/
theorem toInt_sext {n : Nat} (h1 : 1 ≤ n) (h32 : n ≤ 32) (v : BitVec n) : (sext v).toInt = sextInt v := by
  have hp : 2 ^ n = 2 * 2 ^ (n - 1) := by rw [← pow_succ', Nat.sub_add_cancel h1]
  rw [sext, BitVec.toInt_signExtend_of_le h32, BitVec.toInt_eq_toNat_cond, sextInt]
  exact if_congr (by omega) rfl rfl

/-- The unsigned reading of a sign-extended immediate. -/
theorem toNat_sext {n : Nat} (h1 : 1 ≤ n) (v : BitVec n) : ((sext v).toNat : Int) = sextInt v % 2 ^ 32 := by
  rw [sext_eq_mod32 h1, mod32, BitVec.toNat_ofInt]
  omega

theorem State.ltSigned_sext_iff (s : State) (r : RegIdx) (imm : BitVec 12) :
    ltSigned (s.readReg r) (sext imm) = true ↔ s.signedReg r < sextInt imm := by
  rw [ltSigned, BitVec.slt_iff_toInt_lt, toInt_sext (by decide) (by decide), State.signedReg]

theorem State.ltUnsigned_sext_iff (s : State) (r : RegIdx) (imm : BitVec 12) :
    ltUnsigned (s.readReg r) (sext imm) = true ↔ s.unsignedReg r < sextInt imm % 2 ^ 32 := by
  rw [ltUnsigned, BitVec.ult_iff_lt, BitVec.lt_def, ← toNat_sext (by decide), State.unsignedReg, Int.ofNat_lt]

/-! ### ADDI, SLTI, SLTIU and XORI, ORI, ANDI (R191 to R196) -/

/-- Settles O32: the ArithImm handler tests `funct3` alone for these three, and each instruction ends in `finish` with a sum
or a comparison of integers. -/
theorem addAndCompareImmediate : Obligations.AddAndCompareImmediate := by
  refine ⟨?addi, ?slti, ?sltiu, fun s rd rs1 imm => ⟨?sum, ?signed, ?unsigned⟩⟩
  case addi => exact funct3Selects_of_group .arithImm 0#3 fun w hf => by simp [decodeGroup, decodeArithImm, hf]
  case slti => exact funct3Selects_of_group .arithImm 2#3 fun w hf => by simp [decodeGroup, decodeArithImm, hf]
  case sltiu => exact funct3Selects_of_group .arithImm 3#3 fun w hf => by simp [decodeGroup, decodeArithImm, hf]
  case sum => exact State.finish_registerInstr rfl (add_sext_eq_mod32 (by decide) _ imm)
  case signed => exact State.finish_registerInstr rfl (boolWord_eq_oneIf (s.ltSigned_sext_iff rs1 imm))
  case unsigned => exact State.finish_registerInstr rfl (boolWord_eq_oneIf (s.ltUnsigned_sext_iff rs1 imm))

/-- Settles O33: the ArithImm handler tests `funct3` alone for these three, and the second operand of each is the
sign-extended immediate. -/
theorem bitwiseImmediate : Obligations.BitwiseImmediate := by
  refine ⟨?xori, ?ori, ?andi, fun s rd rs1 imm => ?results⟩
  case xori => exact funct3Selects_of_group .arithImm 4#3 fun w hf => by simp [decodeGroup, decodeArithImm, hf]
  case ori => exact funct3Selects_of_group .arithImm 6#3 fun w hf => by simp [decodeGroup, decodeArithImm, hf]
  case andi => exact funct3Selects_of_group .arithImm 7#3 fun w hf => by simp [decodeGroup, decodeArithImm, hf]
  case results =>
    rw [← sext_eq_mod32 (by decide) imm]
    exact ⟨State.finish_registerInstr rfl rfl, State.finish_registerInstr rfl rfl, State.finish_registerInstr rfl rfl⟩

/-! ### SLLI, SRLI, SRAI (R197 to R199) -/

/-- Bits shifted out at the top are lost: the product modulo 2^32. -/
theorem shiftLeft_eq_mod32 (v : Word) (n : Nat) : v <<< n = mod32 ((v.toNat : Int) * 2 ^ n) := by
  apply BitVec.eq_of_toNat_eq
  rw [BitVec.toNat_shiftLeft, Nat.shiftLeft_eq, mod32, BitVec.toNat_ofInt]
  norm_cast

/-- Zeros enter at the top: the quotient of the unsigned value. -/
theorem ushiftRight_eq_mod32 (v : Word) (n : Nat) : v >>> n = mod32 ((v.toNat : Int) / 2 ^ n) := by
  rw [← mod32_toNat (v >>> n), BitVec.toNat_ushiftRight, Nat.shiftRight_eq_div_pow]
  norm_cast

/-- Copies of bit 31 enter at the top: the floor of the quotient of the signed value. -/
theorem sshiftRight_eq_mod32 (v : Word) (n : Nat) : v.sshiftRight n = mod32 (v.toInt / 2 ^ n) := by
  rw [BitVec.sshiftRight, Int.shiftRight_eq_div_pow, mod32]
  norm_cast

/-- Settles O34: the ArithImm handler tests `funct3` and bits 31 to 25 for the shifts, and each instruction ends in `finish`
with the product or the quotient. -/
theorem shiftImmediate : Obligations.ShiftImmediate := by
  refine ⟨?slli, ?srli, ?srai, fun s rd rs1 shamt => ⟨?product, ?quotient, ?floor⟩⟩
  case slli =>
    exact funct7Selects_of_group .arithImm 1#3 0#7 fun w h3 h7 => by
      simp [decodeGroup, decodeArithImm, decodeShiftLeftImm, h3, h7]
  case srli =>
    exact funct7Selects_of_group .arithImm 5#3 0#7 fun w h3 h7 => by
      simp [decodeGroup, decodeArithImm, decodeShiftRightImm, h3, h7]
  case srai =>
    exact funct7Selects_of_group .arithImm 5#3 0x20#7 fun w h3 h7 => by
      simp [decodeGroup, decodeArithImm, decodeShiftRightImm, h3, h7]
  case product => exact State.finish_registerInstr rfl (shiftLeft_eq_mod32 _ _)
  case quotient => exact State.finish_registerInstr rfl (ushiftRight_eq_mod32 _ _)
  case floor => exact State.finish_registerInstr rfl (sshiftRight_eq_mod32 _ _)

end Sys2Proof.Machine
end

section
/-! Proofs of the statements of 46_arith_reg: the ten register-register operations (R211 to R220). -/

namespace Sys2Proof.Machine

/-! ### Selection under the ArithReg opcode (R109) -/

/-- With `funct7 = 0000000` the handler leaves the choice to `funct3` alone: what the base table answers for `f3` is what
the word decodes to. -/
theorem arithRegBase_selects (f3 : BitVec 3) {i : Word → Instr}
    (h : ∀ w, funct3Of w = f3 → decodeArithRegBase w = i w) : Funct7Selects 0x33 f3.toNat 0 i :=
  funct7Selects_of_group .arithReg f3 0#7 fun w h3 h7 => by simp [decodeGroup, decodeArithReg, h7, h w h3]

/-! ### The results as integers (R211 to R218) -/

theorem add_eq_mod32 (a b : Word) : a + b = mod32 ((a.toNat : Int) + b.toNat) := by
  rw [mod32_add, mod32_toNat, mod32_toNat]

theorem sub_eq_mod32 (a b : Word) : a - b = mod32 ((a.toNat : Int) - b.toNat) := by
  rw [eq_comm, eq_sub_iff_add_eq]
  calc mod32 ((a.toNat : Int) - b.toNat) + b
    _ = mod32 ((a.toNat : Int) - b.toNat + b.toNat) := by rw [mod32_add, mod32_toNat b]
    _ = a := by rw [sub_add_cancel, mod32_toNat]

/-- Bits 31 to 5 of the register do not count. -/
theorem toNat_shiftAmount (v : Word) : (shiftAmount v).toNat = v.toNat % 32 := by
  rw [shiftAmount, BitVec.extractLsb'_toNat, Nat.shiftRight_zero]

/-! ### ADD, SUB, SLT, SLTU (R211, R212, R214, R215) -/

/-- Settles O35: ADDI is selected by `funct3` alone and the other four by `funct3` and `funct7`; each instruction ends in
`finish` with a value computed from the old registers, so coincident registers are no case of their own. -/
theorem addSubtractAndCompareRegisters : Obligations.AddSubtractAndCompareRegisters := by
  obtain ⟨addiSelected, -⟩ := addAndCompareImmediate
  refine ⟨addiSelected, ?add, ?sub, ?slt, ?sltu, fun s rd rs1 rs2 => ⟨?sum, ?difference, ?signed, ?unsigned⟩⟩
  case add => exact arithRegBase_selects 0#3 fun w h3 => by simp [decodeArithRegBase, h3]
  case sub =>
    exact funct7Selects_of_group .arithReg 0#3 0x20#7 fun w h3 h7 => by simp [decodeGroup, decodeArithReg, h3, h7]
  case slt => exact arithRegBase_selects 2#3 fun w h3 => by simp [decodeArithRegBase, h3]
  case sltu => exact arithRegBase_selects 3#3 fun w h3 => by simp [decodeArithRegBase, h3]
  case sum => exact State.finish_registerInstr rfl (add_eq_mod32 _ _)
  case difference => exact State.finish_registerInstr rfl (sub_eq_mod32 _ _)
  case signed => exact State.finish_registerInstr rfl (boolWord_eq_oneIf (s.ltSigned_readReg_iff rs1 rs2))
  case unsigned => exact State.finish_registerInstr rfl (boolWord_eq_oneIf (s.ltUnsigned_readReg_iff rs1 rs2))

/-! ### XOR, OR, AND (R216, R219, R220) -/

/-- Settles O36: `funct7 = 0000000` and `funct3` select, and each instruction ends in `finish` with the bitwise operation
itself. -/
theorem bitwiseRegisters : Obligations.BitwiseRegisters := by
  refine ⟨?xor, ?or, ?and, fun s rd rs1 rs2 => ⟨?_, ?_, ?_⟩⟩
  case xor => exact arithRegBase_selects 4#3 fun w h3 => by simp [decodeArithRegBase, h3]
  case or => exact arithRegBase_selects 6#3 fun w h3 => by simp [decodeArithRegBase, h3]
  case and => exact arithRegBase_selects 7#3 fun w h3 => by simp [decodeArithRegBase, h3]
  all_goals exact State.finish_registerInstr rfl rfl

/-! ### SLL, SRL, SRA (R213, R217, R218) -/

/-- Settles O37: `funct3` and `funct7` select, and each instruction ends in `finish` with the product or the quotient by
the power of two that the low five bits of `x[rs2]` give. -/
theorem shiftRegisters : Obligations.ShiftRegisters := by
  refine ⟨?sll, ?srl, ?sra, fun s rd rs1 rs2 => ?results⟩
  case sll => exact arithRegBase_selects 1#3 fun w h3 => by simp [decodeArithRegBase, h3]
  case srl => exact arithRegBase_selects 5#3 fun w h3 => by simp [decodeArithRegBase, h3]
  case sra =>
    exact funct7Selects_of_group .arithReg 5#3 0x20#7 fun w h3 h7 => by simp [decodeGroup, decodeArithReg, h3, h7]
  case results =>
    rw [← toNat_shiftAmount]
    exact ⟨State.finish_registerInstr rfl (shiftLeft_eq_mod32 _ _),
      State.finish_registerInstr rfl (ushiftRight_eq_mod32 _ _),
      State.finish_registerInstr rfl (sshiftRight_eq_mod32 _ _)⟩

end Sys2Proof.Machine
end

section
/-! Proofs of the statements of 47_fence to 70_reset_and_hazards: FENCE (R231) and ECALL (R236), the execution engine
(R241 to R245), the host's interfaces (R263, R268), the fatal errors (R281 to R286) and reset (R310 to R313). -/

namespace Sys2Proof.Machine

/-! ### The supply of characters and the operations on the state (R263)

What waits in `input` is read by a port read alone: every other operation commutes with the supply. -/

theorem State.retire_supply (s : State) (cs : List Byte) (a : Answer) :
    (s.supply cs).retire a = (s.retire a).supply cs := by
  cases a <;> rfl

theorem State.writeReg_supply (s : State) (cs : List Byte) (r : RegIdx) (v : Word) :
    (s.supply cs).writeReg r v = (s.writeReg r v).supply cs := by
  unfold State.writeReg
  split_ifs <;> rfl

theorem State.finish_supply (s : State) (cs : List Byte) (rd : RegIdx) (v : Word) :
    (s.supply cs).finish rd v = (s.finish rd v).supply cs := by
  rw [State.finish, State.writeReg_supply, State.retire_supply, State.finish]

theorem State.jumpAndLink_supply (s : State) (cs : List Byte) (rd : RegIdx) (target : Word) :
    (s.supply cs).jumpAndLink rd target = (s.jumpAndLink rd target).supply cs := by
  rw [State.jumpAndLink, State.writeReg_supply, State.retire_supply]
  rfl

theorem State.branch_supply (s : State) (cs : List Byte) (taken : Bool) (imm : BitVec 13) :
    (s.supply cs).branch taken imm = (s.branch taken imm).supply cs :=
  State.retire_supply s cs _

theorem State.effectiveAddress_supply (s : State) (cs : List Byte) (rs1 : RegIdx) (imm : BitVec 12) :
    (s.supply cs).effectiveAddress rs1 imm = s.effectiveAddress rs1 imm := rfl

theorem State.store_supply (s : State) (cs : List Byte) (n : AccessWidth) (rs1 rs2 : RegIdx) (imm : BitVec 12) :
    (s.supply cs).store n rs1 rs2 imm = (s.store n rs1 rs2 imm).supply cs := by
  cases hf : s.alignmentFails (s.effectiveAddress rs1 imm) n with
  | true =>
    rw [State.store_of_alignmentFails rs2 hf, State.store_of_alignmentFails (s := s.supply cs) rs2 hf]
    rfl
  | false =>
    by_cases ha : s.effectiveAddress rs1 imm = Config.ioPortAddr
    · rw [State.store_port n rs2 ha, State.store_port (s := s.supply cs) n rs2 ha]
      rfl
    · have hallowed := (s.accessAllowed_iff _ n).mpr hf
      rw [State.store_storage rs2 ha hallowed, State.store_storage (s := s.supply cs) rs2 ha hallowed]
      rfl

/-! ### Reads and the supply (R65, R263) -/

/-- A character that is available stays the next one, however many are supplied behind it. -/
theorem State.nextChar_supply_of_some {s : State} {c : Byte} (hc : s.nextChar = some c) (cs : List Byte) :
    (s.supply cs).nextChar = some c := by
  obtain ⟨hlt, _⟩ := List.getElem?_eq_some_iff.mp hc
  rw [State.nextChar, State.supply_input, State.supply_inPos, List.getElem?_append_left hlt]
  exact hc

/-- What a read answers when the host has supplied more. -/
def ReadResult.supply (cs : List Byte) : ReadResult → ReadResult
  | .value v s => .value v (s.supply cs)
  | .fault f => .fault f
  | .hold => .hold

/-- A read that does not wait reads the same with more characters waiting: only the port reads `input`, and it takes the
character that was there. -/
theorem State.memRead_supply {s : State} {a : Word} {n : AccessWidth} (h : s.memRead a n ≠ .hold) (cs : List Byte) :
    (s.supply cs).memRead a n = (s.memRead a n).supply cs := by
  cases hf : s.alignmentFails a n with
  | true => rw [State.memRead_of_alignmentFails hf, State.memRead_of_alignmentFails (s := s.supply cs) hf]; rfl
  | false =>
    by_cases ha : a = Config.ioPortAddr
    · subst ha
      rw [State.memRead_port] at h
      rw [State.memRead_port, State.memRead_port]
      cases hc : s.nextChar with
      | none => exact absurd (State.portRead_of_no_char hc) h
      | some c =>
        rw [State.portRead_of_nextChar hc, State.portRead_of_nextChar (State.nextChar_supply_of_some hc cs)]
        rfl
    · rw [State.memRead_storage hf ha, State.memRead_storage (s := s.supply cs) hf ha]
      rfl

/-- So does the fetch. -/
theorem State.fetch_supply {s : State} {r : ReadResult} (hw : s.fetch = r) (hr : r ≠ .hold) (cs : List Byte) :
    (s.supply cs).fetch = r.supply cs := by
  subst hw
  exact State.memRead_supply hr cs

/-- A load that changes the state did not wait, so it reads the same. -/
theorem State.load_supply {s : State} {n : AccessWidth} {e : Extension} {rd rs1 : RegIdx} {imm : BitVec 12}
    (h : s.load n e rd rs1 imm ≠ s) (cs : List Byte) :
    (s.supply cs).load n e rd rs1 imm = (s.load n e rd rs1 imm).supply cs := by
  have hread : s.memRead (s.effectiveAddress rs1 imm) n ≠ .hold := fun hw => h (by rw [State.load, hw])
  rw [State.load, State.effectiveAddress_supply, State.memRead_supply hread cs, State.load]
  cases s.memRead (s.effectiveAddress rs1 imm) n with
  | value v s' => exact s'.finish_supply cs rd _
  | fault f => rfl
  | hold => rfl

/-! ### A step and the supply (R263) -/

/-- From the state an instruction leaves to its outcome. -/
theorem next_supply {t u v : State} {cs : List Byte} (hv : v = u.supply cs)
    (h : (.next u : Host.Outcome State Fault Refusal) = .next t) :
    (.next v : Host.Outcome State Fault Refusal) = .next (t.supply cs) := by
  cases h; rw [hv]

/-- An instruction that changes the state has the same effect with more characters waiting. -/
theorem exec_supply {i : Instr} {s t : State} (h : exec i s = .next t) (hne : t ≠ s) (cs : List Byte) :
    exec i (s.supply cs) = .next (t.supply cs) := by
  cases i
  case jal | jalr => exact next_supply (State.jumpAndLink_supply s cs _ _) h
  case beq | bne | blt | bge | bltu | bgeu => exact next_supply (State.branch_supply s cs _ _) h
  case lb | lh | lw | lbu | lhu =>
    exact next_supply (State.load_supply (fun hl => hne ((Host.Outcome.next.inj h).symm.trans hl)) cs) h
  case sb | sh | sw => exact next_supply (State.store_supply s cs _ _ _ _) h
  case fence | ecall => exact next_supply (State.retire_supply s cs _) h
  all_goals exact next_supply (State.finish_supply s cs _ _) h

/-- A fetched instruction whose step changes the state changes what the fetch left: from the port it completes, and from
storage the fetch left the state as it was. -/
theorem exec_fetched_ne {s s' t : State} {w : Word} {i : Instr} (hw : s.fetch = .value w s') (hd : decode w = .ok i)
    (h : exec i s' = .next t) (hne : t ≠ s) : t ≠ s' := by
  rcases State.fetch_value hw with ⟨c, _, _, rfl, rfl⟩ | ⟨_, _, rfl⟩
  · obtain ⟨_, _, hcount⟩ := exec_port_word hd h
    exact fun ht => Nat.succ_ne_self _ (hcount.symm.trans (congrArg State.cycles ht))
  · exact hne

/-- Settles O50: the fetch did not wait, so it fetches the same word, and what follows it, the record of an error or the
effect of the decoded instruction, commutes with the supply. -/
theorem waitingCharactersDoNotEnterTheStep : Obligations.WaitingCharactersDoNotEnterTheStep := by
  intro s t cs h hne
  obtain ⟨hfault, hrun, hstep⟩ := step_cases h
  have hcan : (s.supply cs).canStep = true := by simp [State.canStep, hfault, hrun]
  rcases hstep with ⟨_, ht⟩ | ⟨f, hw, rfl⟩ | ⟨w, s', r, hw, hd, rfl⟩ | ⟨w, s', i, hw, hd, hex⟩
  · exact absurd ht hne
  · exact step_of_fetch_fault hcan (State.fetch_supply hw nofun cs)
  all_goals have hfetch := State.fetch_supply hw nofun cs
  · exact (step_of_fetch_value hcan hfetch).trans (executeWord_of_decode_error hd _ _)
  · have hexec := exec_supply hex (exec_fetched_ne hw hd hex hne) cs
    exact (step_of_fetch_value hcan hfetch).trans ((executeWord_of_decode_ok hd _ _).trans hexec)

/-! ### The configuration (R263, R268) -/

/-- A fetch changes neither what the host has supplied nor the alignment setting. -/
theorem State.fetch_value_config {s s' : State} {w : Word} (h : s.fetch = .value w s') :
    s'.alignEnforce = s.alignEnforce ∧ s'.input = s.input := by
  rcases State.fetch_value h with ⟨c, _, _, _, rfl⟩ | ⟨_, _, rfl⟩ <;> exact ⟨rfl, rfl⟩

/-- Settles O48: a hold and an error leave both, and so do the fetch and the decoded instruction (`Effect.config_eq`). -/
theorem configurationIsConstant : Obligations.ConfigurationIsConstant := by
  intro s t h
  obtain ⟨_, _, ⟨_, rfl⟩ | ⟨f, _, rfl⟩ | ⟨w, s', r, hw, _, rfl⟩ | ⟨w, s', i, hw, _, hex⟩⟩ := step_cases h
  · exact ⟨rfl, rfl⟩
  · exact ⟨rfl, rfl⟩
  all_goals obtain ⟨halign, hinput⟩ := State.fetch_value_config hw
  · exact ⟨halign, hinput⟩
  · obtain ⟨hinput', halign'⟩ := (exec_effect hex).config_eq
    exact ⟨halign'.trans halign, hinput'.trans hinput⟩

/-! ### A faulting step (R286) -/

/-- Settles O46: of the ends of a step (`step_ends`) only the record of an error leaves a fault, and a state with a fault
recorded has no step. -/
theorem faultingStepWritesOnlyTheRecord : Obligations.FaultingStepWritesOnlyTheRecord := by
  intro s t f _ h hf
  obtain ⟨hfault, hrun, _⟩ := step_cases h
  obtain ⟨hstopped, _⟩ := stoppedHartHasNoStep t
  rcases step_ends h with ⟨_, _, _, _, _, hnone, _⟩ | ⟨g, rfl⟩ | ⟨rfl, _⟩
  · rw [hnone] at hf; cases hf
  · obtain rfl : g = f := Option.some.inj hf
    exact ⟨rfl, hrun, hstopped g hf⟩
  · rw [hfault] at hf; cases hf

/-! ### A step on a word from storage (R241, R242, R281, R282) -/

/-- The four cells at `pc`, as the statements write them, are the word the fetch reads (R53, R54). -/
theorem State.decodeAtPc_eq (s : State) : s.decodeAtPc = decode (s.mem.readValue s.pc .word) := by
  simp only [State.decodeAtPc, decodeBytes, wordOfBytes, Memory.readValue, byteAddr_eq, Nat.add_zero]

/-- The step of a hart whose `pc` is in storage executes the word of the four cells at `pc`. -/
theorem step_storage {s : State} (hs : s.canStep = true) (hp : s.pc ≠ Config.ioPortAddr) (ha : s.accessAllowed s.pc 4) :
    step s = executeWord s.pc (s.mem.readValue s.pc .word) s :=
  step_of_fetch_value hs (State.fetch_storage ((s.accessAllowed_iff s.pc .word).mp ha) hp)

/-- Settles O40: the word in storage decodes to `i`, and the fetch left the state as it was. -/
theorem stepRunsDecodedInstruction : Obligations.StepRunsDecodedInstruction := by
  intro s i hs hp ha hd
  rw [State.decodeAtPc_eq] at hd
  exact (step_storage hs hp ha).trans (executeWord_of_decode_ok hd _ _)

/-- Settles O41: the word in storage is rejected, and the fetch left the state as it was. -/
theorem rejectedWordRecordsFault : Obligations.RejectedWordRecordsFault := by
  intro s r hs hp ha hd
  rw [State.decodeAtPc_eq] at hd
  exact (step_storage hs hp ha).trans (executeWord_of_decode_error hd _ _)

/-! ### FENCE and ECALL (R231, R236) -/

/-- Settles O38: the handler tests no field, so the opcode alone selects, and the instruction is the engine's update. -/
theorem fenceOnlyAdvances : Obligations.FenceOnlyAdvances := by
  refine ⟨opcodeSelects_of_group .fence fun _ => rfl, rfl, fun s => ⟨s.retire .fallThrough, rfl, ?_⟩⟩
  rw [← s.nextPc_eq_mod32]
  simp [CompletesAt, State.nextPc, SameRecord, SameRegisters, SameCells, SamePort]

/-- A HALTED hart has no next state, whether or not a fault is recorded (R33). -/
theorem step_ne_next_of_halted {s : State} (hr : s.run = .halted) (t : State) : step s ≠ .next t := by
  intro h
  obtain ⟨_, hrunning, _⟩ := step_cases h
  rw [hr] at hrunning
  cases hrunning

/-- Settles O39: the handler tests no field, so the opcode alone selects; the instruction is the engine's update on the
halt signal, which leaves a HALTED hart. -/
theorem ecallHaltsAndCounts : Obligations.EcallHaltsAndCounts := by
  refine ⟨opcodeSelects_of_group .ecall fun _ => rfl, rfl, fun s => ⟨s.retire .halt, rfl, s.nextPc_eq_mod32,
    s.retire_cycles .halt, s.retire_halt_run, ?_, ?_, ?_, ?_, step_ne_next_of_halted s.retire_halt_run⟩⟩
  all_goals simp [SameRecord, SameRegisters, SameCells, SamePort]

/-! ### Reset (R310 to R313) -/

/-- The store after the image load: the image from address 0 on, and 0 elsewhere (R310). -/
theorem Memory.read_ofImage (image : List Byte) {a : Nat} (ha : a < 2 ^ 32) :
    (Memory.ofImage image).read a = (image[a]?).getD 0#8 :=
  Memory.read_load image [] Config.imageBase rfl a (Nat.zero_le a) ha

/-- A byte of the image as a number; a missing one counts 0. -/
def imageByte (image : List Byte) (a : Nat) : Nat := ((image[a]?).getD 0#8).toNat

/-- The little-endian word of four bytes of the image (R53), which the reset sequence reads (R311, R312). -/
theorem Memory.readValue_ofImage (image : List Byte) {a : Word} (ha : a.toNat + 3 < 2 ^ 32) :
    (Memory.ofImage image).readValue a .word = BitVec.ofNat 32 (imageByte image a.toNat +
      2 ^ 8 * imageByte image (a.toNat + 1) + 2 ^ 16 * imageByte image (a.toNat + 2) +
      2 ^ 24 * imageByte image (a.toNat + 3)) := by
  have hcell (k : Nat) (hk : k ≤ 3) :
      ((Memory.ofImage image).read ((a.toNat + k) % 2 ^ 32)).toNat = imageByte image (a.toNat + k) := by
    rw [Nat.mod_eq_of_lt (by omega), Memory.read_ofImage image (by omega), imageByte]
  rw [Memory.readValue_eq_cellSum]
  simp only [AccessWidth.bytes, cellSum, hcell, Nat.le_refl, Nat.reduceLeDiff]
  rw [Nat.add_zero]
  congr 1
  omega

/-- Settles O10: the image load gives the store and the two words of the reset sequence; the write of `x[2]` is the first
the watermarks see; nothing writes the rest. -/
theorem bootLeavesResetTable : Obligations.BootLeavesResetTable := by
  intro image initRegs enforce input _ s byte
  have hsp : s.readReg 2#5 = (Memory.ofImage image).readValue Config.spVector .word := State.readReg_writeReg ..
  refine ⟨fun a ha => ?store, rfl, ?sp, fun r h0 h2 => ?initReg, ?pc, ?spMax, ?spMin, ?_⟩
  case store => exact Memory.read_ofImage image ha
  case sp => exact hsp.trans (Memory.readValue_ofImage image (by decide))
  case initReg =>
    have hkept : s.readReg r = (State.beforeSp image initRegs enforce input).readReg r := by
      simp [s, State.boot, State.readReg_writeReg, h2]
    exact hkept.trans (if_neg h0)
  case pc => exact Memory.readValue_ofImage (a := Config.pcVector) image (by decide)
  case spMax => rw [hsp]; rfl
  case spMin => rw [hsp]; rfl
  simp [s, State.boot, State.beforeSp]

end Sys2Proof.Machine
end
